-- ==== Sys2Proof/Word.lean ====
section
/-! DEFINITION. The word types of the CORE: the byte, and the nine-bit program counter. -/

namespace Sys2Proof

/-- A byte: every register, every memory byte and every operand (R6 `BYTE`, R20, R53). -/
abbrev Byte := BitVec 8

/-- The program counter's word: nine bits, values 0..256, 256 being one past the top of memory (R27). -/
abbrev PcWord := BitVec 9

end Sys2Proof
end

