-- ==== Sys2Proof/Syntax.lean ====
section
/-! DEFINITION. The nine operations and the instructions, one constructor per row of the opcode table (R78). -/

namespace Sys2Proof

/-- The nine operations of the dispatch table, in the opcode table's order (R4, R78). -/
inductive Operation where
  | hlt | ret | push | pop | prn | call | ldi | add | mul
deriving DecidableEq, Repr

/-- Every operation, once. -/
def Operation.all : List Operation := [.hlt, .ret, .push, .pop, .prn, .call, .ldi, .add, .mul]

/-- An instruction. A register operand is the whole operand byte as it stands in memory (R77): an index of
8..255 is an instruction the decoder reads and execution rejects with InvalidRegister (R81, R215). -/
inductive Instr where
  /-- `HLT` (R132). -/
  | hlt
  /-- `RET` (R191). -/
  | ret
  /-- `PUSH R` (R171). -/
  | push (r : Byte)
  /-- `POP R` (R172). -/
  | pop (r : Byte)
  /-- `PRN R` (R131). -/
  | prn (r : Byte)
  /-- `CALL R` (R190). -/
  | call (r : Byte)
  /-- `LDI R,imm` (R130). -/
  | ldi (r imm : Byte)
  /-- `ADD R1,R2` (R151). -/
  | add (r1 r2 : Byte)
  /-- `MUL R1,R2` (R152). -/
  | mul (r1 r2 : Byte)
deriving DecidableEq, Repr

/-- The operation an instruction carries out. -/
def Instr.operation : Instr → Operation
  | .hlt => .hlt
  | .ret => .ret
  | .push _ => .push
  | .pop _ => .pop
  | .prn _ => .prn
  | .call _ => .call
  | .ldi _ _ => .ldi
  | .add _ _ => .add
  | .mul _ _ => .mul

/-- The operand bytes in memory order: operand A, then operand B (R76, R77). -/
def Instr.operands : Instr → List Byte
  | .hlt | .ret => []
  | .push r | .pop r | .prn r | .call r => [r]
  | .ldi r imm => [r, imm]
  | .add r1 r2 | .mul r1 r2 => [r1, r2]

/-- The operand bytes that are register indices: A for LDI, PRN, PUSH, POP and CALL; A then B for ADD and MUL
(`regOperands` of R109). -/
def Instr.regOperands : Instr → List Byte
  | .hlt | .ret => []
  | .push r | .pop r | .prn r | .call r => [r]
  | .ldi r _ => [r]
  | .add r1 r2 | .mul r1 r2 => [r1, r2]

end Sys2Proof
end

