-- ==== Sys2Proof/WellFormed.lean ====
section
/-! DEFINITION. When an instruction is well formed: every register operand names one of R0..R7 (R24). -/

namespace Sys2Proof

/-- A register-operand byte is valid exactly when it is 0..7; no bits are masked off (R24, R77). -/
def validRegister (r : Byte) : Bool := decide (r.toNat < 8)

/-- Every register operand is valid. The immediate of LDI may be any byte (R77). -/
def Instr.wellFormed (i : Instr) : Bool := i.regOperands.all validRegister

end Sys2Proof
end

