-- ==== Sys2Proof/Decode.lean ====
section
/-! DEFINITION. The decoder, total on any bytes and rejecting by name, the opcode map, and the encoder. -/

namespace Sys2Proof

/-! ### The opcode byte `AABCDDDD` (R71) -/

/-- The operand count `opcode[7:6]` (R72). -/
def operandCount (op : Byte) : Nat := (op.extractLsb' 6 2).toNat

/-- The ALU flag `opcode[5]` (R73). PRESUMED by the spec itself (D2; log entry 4). -/
def aluFlag (op : Byte) : Bool := op.getLsbD 5

/-- The PC-control flag `opcode[4]` (R74). PRESUMED by the spec itself (D2; log entry 4). -/
def pcControlFlag (op : Byte) : Bool := op.getLsbD 4

/-- The low identifier `opcode[3:0]` (R71). It does not name an operation on its own (R75). -/
def lowIdentifier (op : Byte) : Nat := (op.extractLsb' 0 4).toNat

/-! ### The opcode map -/

/-- An assignment of opcode bytes to the nine operations; the spec recommends it as configuration (U13). -/
abbrev OpcodeMap := Operation → Byte

/-- The spec's opcode map (R78). LDI, PRN and HLT are the source's own values; the other six are PRESUMED by the
spec itself (D1; log entry 3). -/
def opcodes : OpcodeMap
  | .hlt => 0x01#8
  | .ret => 0x11#8
  | .push => 0x45#8
  | .pop => 0x46#8
  | .prn => 0x47#8
  | .call => 0x50#8
  | .ldi => 0x82#8
  | .add => 0xA0#8
  | .mul => 0xA2#8

/-- How many operand bytes the operation has: formats Z, R, RI and RR (R76). -/
def Operation.operandCount : Operation → Nat
  | .hlt | .ret => 0
  | .push | .pop | .prn | .call => 1
  | .ldi | .add | .mul => 2

/-- The operations routed through the ALU: exactly ADD and MUL (R73). -/
def Operation.usesAlu : Operation → Bool
  | .add | .mul => true
  | .hlt | .ret | .push | .pop | .prn | .call | .ldi => false

/-- The operations whose handler sets `pc` itself: exactly CALL and RET (R74). -/
def Operation.setsPc : Operation → Bool
  | .ret | .call => true
  | .hlt | .push | .pop | .prn | .ldi | .add | .mul => false

/-- What an opcode map must keep (R79): the bits derived from each opcode agree with its operation, and no two
operations share a byte. -/
def OpcodeMap.Agrees (m : OpcodeMap) : Prop :=
  (∀ o, Sys2Proof.operandCount (m o) = o.operandCount ∧ aluFlag (m o) = o.usesAlu ∧ pcControlFlag (m o) = o.setsPc) ∧
    ∀ o p, m o = m p → o = p

/-- The operation whose opcode is `op`, keyed by all eight bits (R75). -/
def OpcodeMap.lookup (m : OpcodeMap) (op : Byte) : Option Operation :=
  Operation.all.find? fun o => m o == op

/-! ### Decoding -/

/-- The four classes of opcode bytes (R80). -/
inductive OpcodeClass where
  | defined (o : Operation)
  | countThree
  | undefinedAlu
  | undefinedOther
deriving DecidableEq, Repr

/-- The class of an opcode byte under a map (R80, R103). -/
def classifyWith (m : OpcodeMap) (op : Byte) : OpcodeClass :=
  if operandCount op = 3 then .countThree
  else match m.lookup op with
    | some o => .defined o
    | none => if aluFlag op then .undefinedAlu else .undefinedOther

/-- The class of an opcode byte (R80). -/
def classify (op : Byte) : OpcodeClass := classifyWith opcodes op

/-- Why bytes spell no instruction. -/
inductive DecodeError where
  /-- The bytes end before the byte at this offset (0 the opcode, 1 operand A, 2 operand B). -/
  | missingByte (offset : Nat)
  /-- A count-3 opcode, or an undefined opcode with ALU flag 0 (R103, R211). -/
  | unknownInstruction (opcode : Byte)
  /-- An undefined opcode with ALU flag 1 (R80, R212). -/
  | unsupportedAluOperation (opcode : Byte)
deriving DecidableEq, Repr

/-- What decoding answers: an instruction and the bytes after it, or a rejection by name. -/
inductive DecodeResult where
  | ok (i : Instr) (rest : List Byte)
  | error (e : DecodeError)
deriving DecidableEq, Repr

/-- The instruction of an operation with its operand bytes; none when their number is not the operation's. -/
def Operation.build : Operation → List Byte → Option Instr
  | .hlt, [] => some .hlt
  | .ret, [] => some .ret
  | .push, [r] => some (.push r)
  | .pop, [r] => some (.pop r)
  | .prn, [r] => some (.prn r)
  | .call, [r] => some (.call r)
  | .ldi, [r, imm] => some (.ldi r imm)
  | .add, [r1, r2] => some (.add r1 r2)
  | .mul, [r1, r2] => some (.mul r1 r2)
  | _, _ => none

/-- Phase 3 of the step on a list of bytes: the `n` operand bytes are taken one after the other, whether or not
the handler uses them, and the first missing one is named (R104, R112). -/
def withOperands (n : Nat) (rest : List Byte) (k : List Byte → List Byte → DecodeResult) : DecodeResult :=
  if n ≤ rest.length then k (rest.take n) (rest.drop n) else .error (.missingByte (rest.length + 1))

/-- Phases 1 to 3 of the step, and the ALU-tag check of phase 4, on the bytes at `pc`: the order of the rejections
is conditions 1 to 6 of R110. An operation whose operand count is not its opcode's cannot occur under a map that
keeps R79; the opcode is then unknown. -/
def decodeWith (m : OpcodeMap) : List Byte → DecodeResult
  | [] => .error (.missingByte 0)
  | op :: rest =>
    match classifyWith m op with
    | .countThree => .error (.unknownInstruction op)
    | .undefinedOther => .error (.unknownInstruction op)
    | .undefinedAlu => withOperands (operandCount op) rest fun _ _ => .error (.unsupportedAluOperation op)
    | .defined o => withOperands (operandCount op) rest fun ops rest' =>
        match o.build ops with
        | some i => .ok i rest'
        | none => .error (.unknownInstruction op)

/-- The decoder of this hardware. -/
def decode (bytes : List Byte) : DecodeResult := decodeWith opcodes bytes

/-! ### Encoding -/

/-- The bytes of an instruction under a map: the opcode, then the operands (R70, R76). -/
def encodeWith (m : OpcodeMap) (i : Instr) : List Byte := m i.operation :: i.operands

/-- The bytes of an instruction. -/
def encode (i : Instr) : List Byte := encodeWith opcodes i

/-! ### The opcode table's numbering -/

/-- The three bytes of a word numbered as spec/opcode_table.json numbers it: bit 0 is the least significant bit of
the first byte, and every bit from `nbits` on is 0. Three bytes are the longest instruction (R70). -/
def tableBytes (nbits w : Nat) : List Byte :=
  let v := w % 2 ^ nbits
  [BitVec.ofNat 8 v, BitVec.ofNat 8 (v / 256), BitVec.ofNat 8 (v / 65536)]

/-- The instruction the decoder reads from such a word; none where it rejects it. -/
def decodeTableWord (nbits w : Nat) : Option Instr :=
  match decode (tableBytes nbits w) with
  | .ok i _ => some i
  | .error _ => none

end Sys2Proof
end

