-- ==== Sys2Proof/Machine/Flags.lean ====
section
/-! DEFINITION. The machine has no flags and no condition codes (R30): no instruction reads or writes one, and the ALU
exposes no carry and no overflow (R153). What stands where another machine computes flags is the ALU, a pure
function. -/

namespace Sys2Proof.Machine

/-- The operation tag the dispatcher hands the ALU: symbolic for ADD and MUL, and the opcode byte of any other opcode
that has the ALU flag (R105, R150). -/
inductive AluTag where
  | add
  | mul
  | other (opcode : Byte)
deriving DecidableEq, Repr

/-- What the ALU answers: a byte, or the failure that names the tag (R150). -/
inductive AluResult where
  | value (v : Byte)
  | unsupported (opcode : Byte)
deriving DecidableEq, Repr

/-- The tag of an opcode byte. -/
def aluTag (op : Byte) : AluTag :=
  if op = opcodes .add then .add else if op = opcodes .mul then .mul else .other op

/-- `alu(tag, v1, v2)`: the exact unsigned result reduced modulo 256 (R150, R153). -/
def alu : AluTag → Byte → Byte → AluResult
  | .add, v1, v2 => .value (BitVec.ofNat 8 (v1.toNat + v2.toNat))
  | .mul, v1, v2 => .value (BitVec.ofNat 8 (v1.toNat * v2.toNat))
  | .other op, _, _ => .unsupported op

end Sys2Proof.Machine
end

