-- ==== Sys2Proof/Config.lean ====
section
/-! DEFINITION. The fixed parameters of R6 and the types of the open parameters of R7. -/

namespace Sys2Proof

/-- `MEM_SIZE`: addresses 0..255 (R6, R50). -/
abbrev Config.memSize : Nat := 256

/-- `MAX_IMAGE` (R6, R249). -/
abbrev Config.maxImage : Nat := 256

/-- `SP_INDEX`: R7 is the stack pointer (R6, R21). -/
abbrev Config.spIndex : Fin 8 := 7

/-- `SP_RESET` (R6, R36). -/
abbrev Config.spReset : Byte := 0xF4#8

/-- `PC_RESET` (R6, R36, R241). -/
abbrev Config.pcReset : PcWord := 0#9

/-- The launch parameter `regInit`: the reset values of R0..R6, entry i for R<i> (R7(a), R242). -/
abbrev RegInit := Vector Byte 7

/-- The `regInit` of `State.reset`. DESIGN CHOICE, unsafe (log entry 1): the spec leaves R0..R6 open; the
statements about reset quantify over every `RegInit`. -/
def Config.regInit : RegInit := Vector.replicate 7 0#8

/-- The launch parameter `spWrapPolicy` (R7(b), R175): what an SP update that wraps does. -/
inductive SpWrapPolicy where
  /-- The hardware: the update is modulo 256 and the machine goes on. -/
  | wrap
  /-- The conservative proof mode: StackWrap is raised before any write. -/
  | fault
deriving DecidableEq, Repr

/-- One item of a trace line: text that stands as written, or one of the record's values (R226). -/
inductive TraceItem where
  | text (chars : List Char)
  | pc
  | mem (offset : Fin 3)
  | reg (index : Fin 8)
deriving DecidableEq, Repr

/-- The parameter `traceFormat`: separators and field order of the trace line (R7(c), R226). -/
abbrev TraceFormat := List TraceItem

end Sys2Proof
end

