-- ==== Sys2Proof/Machine/State.lean ====
section
/-! DEFINITION. The machine's state, its fault record, the reasons a step can stop, and the state after reset. -/

namespace Sys2Proof.Machine

/-- Memory: the listed (address, byte) pairs, addresses strictly rising below 256, no entry equal to
`Memory.unlisted` (`Memory.wf`). Every address 0..255 exists (R33, R50). -/
abbrev Memory := List Host.Cell

/-- What an address that is not listed reads as: memory is "zero-initialized" (R33, R36). -/
abbrev Memory.unlisted : Byte := 0#8

/-- The kinds of fault (R210). -/
inductive FaultKind where
  | unknownInstruction
  | unsupportedAluOperation
  | addressOutOfRange
  | invalidRegister
  | stackWrap
deriving DecidableEq, Repr

/-- The fault record (R32): the kind, the `pc` at the start of the faulting step, and the kind's information
(an opcode byte, an address, an index byte, or SP before the step). -/
structure FaultRecord where
  kind : FaultKind
  pc : PcWord
  info : Nat
deriving DecidableEq, Repr

/-- The run state (R29). -/
inductive RunState where
  | running
  | halted
  | faulted (record : FaultRecord)
deriving DecidableEq, Repr

/-- The state of the CORE: the tuple `(mem, x, pc, state, out)` of 10_state.md, and the launch parameter
`spWrapPolicy`, which no step writes (log entry 2). -/
structure State where
  /-- `mem` (R33). -/
  mem : Memory
  /-- `x`, the register file R0..R7 (R20). -/
  regs : Vector Byte 8
  /-- `pc` (R26, R27). -/
  pc : PcWord
  /-- `state` (R29). -/
  runState : RunState
  /-- `out`, oldest first (R34). -/
  out : List Byte
  /-- `spWrapPolicy` (R7(b), R175). -/
  spWrapPolicy : SpWrapPolicy
deriving DecidableEq, Repr

/-- Why a step does not exist. The spec's own faults are no stop of the model: their entry is described (R214),
so a step that raises one answers the next state, in FAULTED. -/
inductive Fault where
  /-- Raised by `step` on a HALTED machine: it is final and has no step (R101). Safe: nothing is claimed there. -/
  | noStepHalted
  /-- Raised by `step` on a FAULTED machine: it is final and has no step (R101, R216). Safe. -/
  | noStepFaulted (record : FaultRecord)
deriving DecidableEq, Repr

/-- Why the model gives no meaning. -/
inductive Refusal where
  /-- An instruction whose arm of `exec` has no meaning yet. Raised by no arm now. Safe. -/
  | notModelled (mnemonic : String)
  /-- Raised by the loader on an image longer than 256 bytes (R249). Safe: the spec refuses it too. -/
  | imageTooLong (length : Nat)
  /-- Raised by the loader once `run` has been invoked (R249). Safe: the spec does not allow it. -/
  | loadAfterRun
deriving DecidableEq, Repr

/-- The machine right after construction with the launch parameters, before an image is loaded (R36, R240). -/
def State.resetWith (regInit : RegInit) (policy : SpWrapPolicy) : State where
  mem := []
  regs := regInit.push Config.spReset
  pc := Config.pcReset
  runState := .running
  out := []
  spWrapPolicy := policy

/-- The machine right after reset: `regInit` all zero (DESIGN CHOICE, log entry 1) and the hardware's wrap policy
(R175). -/
def State.reset : State := State.resetWith Config.regInit .wrap

end Sys2Proof.Machine
end

