-- ==== Sys2Proof/Machine/Ops.lean ====
section
/-! DEFINITION. The named operations over memory and state: reads and writes, raising a fault, the program counter's
advance, the halt, and fetching an instruction's bytes. -/

namespace Sys2Proof.Machine

/-! ### Memory -/

/-- The byte an address reads as. -/
def Memory.get : Memory → Nat → Byte
  | [], _ => Memory.unlisted
  | (b, v) :: m, a => if a = b then v else Memory.get m a

/-- Without the entries of an address. -/
def Memory.erase (m : Memory) (a : Nat) : Memory := m.filter fun c => c.1 != a

/-- With an entry put before the first larger address. -/
def Memory.insert : Memory → Nat → Byte → Memory
  | [], a, v => [(a, v)]
  | (b, w) :: m, a, v => if a < b then (a, v) :: (b, w) :: m else (b, w) :: Memory.insert m a v

/-- Writing one byte: writing what an unlisted address reads as removes the entry, so the canonical form is kept. -/
def Memory.set (m : Memory) (a : Nat) (v : Byte) : Memory :=
  if v = Memory.unlisted then m.erase a else (m.erase a).insert a v

/-- The canonical form from an address on: addresses strictly rising, below 256, no entry equal to what an unlisted
address reads as. -/
def Memory.wfFrom : Nat → Memory → Bool
  | _, [] => true
  | low, (a, v) :: m => decide (low ≤ a) && decide (a < Config.memSize) && (v != Memory.unlisted) && Memory.wfFrom (a + 1) m

/-- The canonical form of memory. -/
def Memory.wf (m : Memory) : Bool := Memory.wfFrom 0 m

/-- `MemRead(a, 1)`: every access checks its address; none where it raises AddressOutOfRange (R9, R52). -/
def Memory.read (m : Memory) (a : Nat) : Option Byte :=
  if a < Config.memSize then some (m.get a) else none

/-- Bytes copied to increasing addresses: the loader's copy (R248). -/
def Memory.storeFrom : Memory → Nat → List Byte → Memory
  | m, _, [] => m
  | m, a, v :: vs => Memory.storeFrom (m.set a v) (a + 1) vs

/-! ### Registers, memory and the other fields -/

/-- `x[i]` (R9). No register is hardwired (R22). -/
def State.readReg (s : State) (i : Fin 8) : Byte := s.regs[i]

/-- `x[i] <- v` (R9, R22). -/
def State.writeReg (s : State) (i : Fin 8) (v : Byte) : State := { s with regs := s.regs.set i v }

/-- `SP`, another name for `x[7]` (R9, R21). -/
def State.sp (s : State) : Byte := s.readReg Config.spIndex

/-- Writing SP. -/
def State.setSp (s : State) (v : Byte) : State := s.writeReg Config.spIndex v

/-- `MemRead(a, 1)` at an address that is a byte, as every stack address is: never out of range (R52, R175). -/
def State.loadByte (s : State) (a : Byte) : Byte := s.mem.get a.toNat

/-- `MemWrite(a, 1, v)` at an address that is a byte: never out of range (R52, R175). -/
def State.storeByte (s : State) (a v : Byte) : State := { s with mem := s.mem.set a.toNat v }

/-- `pc <- target` (R9). -/
def State.setPc (s : State) (target : PcWord) : State := { s with pc := target }

/-- `emit(v)`: appends the byte to `out` (R9, R221). -/
def State.emit (s : State) (v : Byte) : State := { s with out := s.out ++ [v] }

/-- `state <- HALTED` (R108). -/
def State.halt (s : State) : State := { s with runState := .halted }

/-! ### Taking a fault -/

/-- `raise`, the machine's one exception entry (R9, R214): the run state becomes FAULTED with the record, whose `pc`
is the faulting step's, and everything else stays. There is no return from it (R216). Every use applies it to the
state at the start of the step. -/
def State.raise (s : State) (kind : FaultKind) (info : Nat) : State :=
  { s with runState := .faulted { kind := kind, pc := s.pc, info := info } }

/-- The numeric code of a fault kind (R210, D26). -/
def FaultKind.code : FaultKind → Nat
  | .unknownInstruction => 1
  | .unsupportedAluOperation => 2
  | .addressOutOfRange => 3
  | .invalidRegister => 4
  | .stackWrap => 5

/-! ### The program counter's advance -/

/-- Phase 5 of the step (R107): with the PC-control flag clear the loop adds `1 + n`, and the result may be 256; with
it set the loop leaves `pc` as the handler set it. `n` and the flag are those of the decoded opcode (R79, R113). -/
def State.advancePc (s : State) (o : Operation) : State :=
  if pcControlFlag (opcodes o) then s
  else s.setPc (s.pc + BitVec.ofNat 9 (1 + Sys2Proof.operandCount (opcodes o)))

/-! ### Fetching -/

/-- The readable bytes from an address on, at most `k` of them, ending below the first address that is out of
range. -/
def Memory.bytesFrom (m : Memory) (a : Nat) : Nat → List Byte
  | 0 => []
  | k + 1 =>
    match m.read a with
    | none => []
    | some v => v :: Memory.bytesFrom m (a + 1) k

/-- What the fetch can read at `pc`: the opcode and up to two operand bytes (R35, R102, R104). The decoder takes from
it only the bytes the opcode's count names, and a byte missing from it is the fetch at 256. -/
def State.fetchBytes (s : State) : List Byte := s.mem.bytesFrom s.pc.toNat 3

/-- The fault of a rejected decode (R102, R103, R104, R211, R212). -/
def State.raiseDecode (s : State) : DecodeError → State
  | .missingByte offset => s.raise .addressOutOfRange (s.pc.toNat + offset)
  | .unknownInstruction op => s.raise .unknownInstruction op.toNat
  | .unsupportedAluOperation op => s.raise .unsupportedAluOperation op.toNat

end Sys2Proof.Machine
end

