-- ==== Sys2Proof/Machine/Operands.lean ====
section
/-! DEFINITION. The operand forms: a register operand, the guard of a stack-pointer update, and the stack slot's
decrement and increment. The immediate operand is the byte itself (R77). -/

namespace Sys2Proof.Machine

/-- What one step answers. -/
abbrev Answer := Host.Outcome State Fault Refusal

/-- A register operand: the handler goes on with the register it names, and an operand byte of 8..255 raises
InvalidRegister before anything is written (R24, R215). -/
def withRegister (r : Byte) (s : State) (k : Fin 8 → Answer) : Answer :=
  if h : r.toNat < 8 then k ⟨r.toNat, h⟩ else .next (s.raise .invalidRegister r.toNat)

/-- The StackWrap check, last of the dispatch checks (R110): only under `spWrapPolicy = fault`, when the handler would
wrap SP; the record holds SP before the step (R175, R210). -/
def guardWrap (wraps : Bool) (s : State) (k : Answer) : Answer :=
  if s.spWrapPolicy = .fault ∧ wraps = true then .next (s.raise .stackWrap s.sp.toNat) else k

/-- `x[7] <- (x[7] - 1) mod 256` (R171, R175). -/
def State.decSp (s : State) : State := s.setSp (s.sp - 1#8)

/-- `x[7] <- (x[7] + 1) mod 256` (R172, R175). -/
def State.incSp (s : State) : State := s.setSp (s.sp + 1#8)

/-- A decrement of SP from 0x00 wraps (R175). -/
def State.decWraps (s : State) : Bool := s.sp == 0x00#8

/-- An increment of SP from 0xFF wraps (R175). -/
def State.incWraps (s : State) : Bool := s.sp == 0xFF#8

/-- The address PUSH and CALL store to: SP after the decrement (R171, R190). -/
def State.pushAddress (s : State) : Byte := s.decSp.sp

end Sys2Proof.Machine
end

