-- ==== Sys2Proof/Machine/Alu.lean ====
section
/-! DEFINITION. The meanings of ADD and MUL. -/

namespace Sys2Proof.Machine

/-- The register-to-register ALU form (R105, R150): operand A is checked before operand B (R110), both registers are
read, the ALU is given the operation's tag, and its byte is written back to the register of operand A. -/
def execAlu (o : Operation) (r1 r2 : Byte) (s : State) : Answer :=
  withRegister r1 s fun d => withRegister r2 s fun e =>
    match alu (aluTag (opcodes o)) (s.readReg d) (s.readReg e) with
    | .value v => .next ((s.writeReg d v).advancePc o)
    | .unsupported op => .next (s.raise .unsupportedAluOperation op.toNat)

/-- ADD (R151): `x[R1] <- alu(ADD, x[R1], x[R2])`. -/
def execAdd (r1 r2 : Byte) (s : State) : Answer := execAlu .add r1 r2 s

/-- MUL (R152): `x[R1] <- alu(MUL, x[R1], x[R2])`. -/
def execMul (r1 r2 : Byte) (s : State) : Answer := execAlu .mul r1 r2 s

end Sys2Proof.Machine
end

