-- ==== Sys2Proof/Machine/ControlTransfer.lean ====
section
/-! DEFINITION. The meanings of CALL and RET. -/

namespace Sys2Proof.Machine

/-- CALL's return address, `pc + 2` (R190). -/
def State.returnAddress (s : State) : Nat := s.pc.toNat + 2

/-- CALL (R190): a return address of 256 raises AddressOutOfRange after the register check (R110); then
`x[7] <- (x[7] - 1) mod 256`, `MemWrite(x[7], 1, ret)`, `pc <- x[R]` in this order, so CALL R7 jumps to the decremented
SP (R106, D9). -/
def execCall (r : Byte) (s : State) : Answer :=
  withRegister r s fun d =>
    if s.returnAddress ≥ Config.memSize then .next (s.raise .addressOutOfRange s.returnAddress)
    else guardWrap s.decWraps s <|
      let s1 := s.decSp
      let s2 := s1.storeByte s1.sp (BitVec.ofNat 8 s.returnAddress)
      let s3 := s2.setPc ((s2.readReg d).setWidth 9)
      .next (s3.advancePc .call)

/-- RET (R191): `pc <- MemRead(x[7], 1)`, then `x[7] <- (x[7] + 1) mod 256`. -/
def execRet (s : State) : Answer :=
  guardWrap s.incWraps s <|
    let s1 := s.setPc ((s.loadByte s.sp).setWidth 9)
    .next (s1.incSp.advancePc .ret)

end Sys2Proof.Machine
end

