-- ==== Sys2Proof/Machine/LoadOutputHalt.lean ====
section
/-! DEFINITION. The meanings of LDI, PRN and HLT. -/

namespace Sys2Proof.Machine

/-- HLT (R132): the advance comes first, then the halt (R108). -/
def execHlt (s : State) : Answer := .next (s.advancePc .hlt).halt

/-- PRN (R131): `emit(x[R])`. -/
def execPrn (r : Byte) (s : State) : Answer :=
  withRegister r s fun d => .next ((s.emit (s.readReg d)).advancePc .prn)

/-- LDI (R130): `x[R] <- imm`. -/
def execLdi (r imm : Byte) (s : State) : Answer :=
  withRegister r s fun d => .next ((s.writeReg d imm).advancePc .ldi)

end Sys2Proof.Machine
end

