-- ==== Sys2Proof/Machine/Stack.lean ====
section
/-! DEFINITION. The meanings of PUSH and POP. Each line of a rule's pseudocode reads the state the lines before it
left (R106, D9). -/

namespace Sys2Proof.Machine

/-- PUSH (R171): `x[7] <- (x[7] - 1) mod 256`, then `MemWrite(x[7], 1, x[R])`. PUSH R7 stores the decremented SP. -/
def execPush (r : Byte) (s : State) : Answer :=
  withRegister r s fun d => guardWrap s.decWraps s <|
    let s1 := s.decSp
    let s2 := s1.storeByte s1.sp (s1.readReg d)
    .next (s2.advancePc .push)

/-- POP (R172): `x[R] <- MemRead(x[7], 1)`, then `x[7] <- (x[7] + 1) mod 256`. It wraps when the second line would, so
POP R7 wraps on the loaded byte. -/
def execPop (r : Byte) (s : State) : Answer :=
  withRegister r s fun d =>
    let s1 := s.writeReg d (s.loadByte s.sp)
    guardWrap s1.incWraps s (.next (s1.incSp.advancePc .pop))

end Sys2Proof.Machine
end

