-- ==== Sys2Proof/Machine/Dispatch.lean ====
section
/-! DEFINITION. The dispatcher: one arm per instruction (R105). exec is phases 4 to 6 of the step of R109 for a decoded
instruction; step calls it on a RUNNING machine only. -/

namespace Sys2Proof.Machine

def exec (i : Instr) (s : State) : Host.Outcome State Fault Refusal :=
  match i with
  | .hlt => Sys2Proof.Machine.execHlt s
  | .ret => Sys2Proof.Machine.execRet s
  | .push r => Sys2Proof.Machine.execPush r s
  | .pop r => Sys2Proof.Machine.execPop r s
  | .prn r => Sys2Proof.Machine.execPrn r s
  | .call r => Sys2Proof.Machine.execCall r s
  | .ldi r imm => Sys2Proof.Machine.execLdi r imm s
  | .add r1 r2 => Sys2Proof.Machine.execAdd r1 r2 s
  | .mul r1 r2 => Sys2Proof.Machine.execMul r1 r2 s

end Sys2Proof.Machine
end

