-- ==== Sys2Proof/Machine/Fetch.lean ====
section
/-! DEFINITION. What Step.lean calls: one instruction cycle of a RUNNING machine, and placing an instruction where the
next fetch finds it. -/

namespace Sys2Proof.Machine

/-- The instruction the machine fetches and decodes next. -/
def State.fetched (s : State) : DecodeResult := decode s.fetchBytes

/-- One step of a RUNNING machine (R109): fetch and decode, and then the decoded instruction's handler or the decode's
fault. -/
def cycle (s : State) : Answer :=
  match s.fetched with
  | .ok i _ => exec i s
  | .error e => .next (s.raiseDecode e)

/-- Whether an instruction of `n` bytes at `pc` ends below 256. -/
def State.fitsAtPc (s : State) (n : Nat) : Bool := decide (s.pc.toNat + n ≤ Config.memSize)

/-- `s` with three bytes placed at `pc` (as many as lie below 256). A machine that has stopped is set RUNNING, and
where the instruction's own bytes would not fit below 256 `pc` is set to 0 first (log entry 8). -/
def State.placeBytes (s : State) (bytes : List Byte) : State :=
  let n := 1 + Sys2Proof.operandCount (bytes.headD 0#8)
  let s1 : State := if s.fitsAtPc n then s else s.setPc Config.pcReset
  { s1 with
    runState := .running
    mem := Memory.storeFrom s1.mem s1.pc.toNat (bytes.take (Config.memSize - s1.pc.toNat)) }

end Sys2Proof.Machine
end

