-- ==== Sys2Proof/Machine/Step.lean ====
section
/-! DEFINITION. The step: one instruction of a RUNNING machine; a machine in HALTED or FAULTED has no step (R101). -/

namespace Sys2Proof.Machine

def step (s : State) : Host.Outcome State Fault Refusal :=
  match s.runState with
  | .running => cycle s
  | .halted => .fault .noStepHalted
  | .faulted record => .fault (.noStepFaulted record)

/-- `s` with the instruction whose bits are `w`, numbered as the opcode table numbers them, placed where `step` fetches
its next instruction (log entry 8). -/
def State.withFetchWord (s : State) (nbits w : Nat) : State := s.placeBytes (tableBytes nbits w)

end Sys2Proof.Machine
end

