-- ==== Sys2Proof/Machine/Platform.lean ====
section
/-! DEFINITION. What the host does with a machine (R37): construct it, load an image before run, run it until it is no
longer RUNNING, read its status. -/

namespace Sys2Proof.Machine

/-- Whether `run` has been invoked: `load` is allowed only before it (R249), and a machine runs once (R251). -/
inductive Phase where
  | fresh
  | started
deriving DecidableEq, Repr

/-- One machine instance as its host holds it; instances share nothing (R63, R223). -/
structure CoreInstance where
  phase : Phase
  core : State
deriving DecidableEq, Repr

/-- Construct the machine with its launch parameters (R240 step 1). -/
def construct (regInit : RegInit) (policy : SpWrapPolicy) : CoreInstance :=
  { phase := .fresh, core := State.resetWith regInit policy }

/-- `mem[i] <- image[i]` from address 0 on: no relocation, no header, no length word (R85, R248). -/
def State.withImage (s : State) (image : List Byte) : State := { s with mem := Memory.storeFrom s.mem 0 image }

/-- `load(image)`: refused once `run` has been invoked, and refused for an image longer than 256 bytes (R249). -/
def load (image : List Byte) (c : CoreInstance) : Host.Outcome CoreInstance Fault Refusal :=
  match c.phase with
  | .started => .refused .loadAfterRun
  | .fresh =>
    if image.length ≤ Config.maxImage then .next { c with core := c.core.withImage image }
    else .refused (.imageTooLong image.length)

/-- At most `fuel` steps, ending at the first state that is not RUNNING (R111, R114, U11). -/
def runSteps : Nat → State → State
  | 0, s => s
  | fuel + 1, s =>
    match step s with
    | .next t => runSteps fuel t
    | .fault _ => s
    | .refused _ => s

/-- `run` under fuel: on a HALTED or FAULTED machine it changes no state (R111, D20). A constructed machine already
holds RUNNING, the value `run` gives `state` (log entry 7). -/
def run (fuel : Nat) (c : CoreInstance) : CoreInstance :=
  { phase := .started, core := runSteps fuel c.core }

/-- What the host sees when `run` returns: `state`, and in FAULTED the record (R37, R222). -/
def status (c : CoreInstance) : RunState := c.core.runState

end Sys2Proof.Machine
end

