-- ==== Sys2Proof/Machine/Presentation.lean ====
section
/-! DEFINITION. The texts the spec describes, as lists of characters: the host's decimal line for a printed byte, the
optional trace record and line, and the assembler spelling. None of them changes the machine. -/

namespace Sys2Proof.Machine

/-! ### Digits -/

/-- A decimal digit. -/
def decimalDigit (n : Nat) : Char := Char.ofNat (48 + n)

/-- An uppercase hexadecimal digit. -/
def hexDigit (n : Nat) : Char := Char.ofNat (if n < 10 then 48 + n else 55 + n)

/-- The decimal digits of a byte, without leading zeros (R221). -/
def decimalByte (b : Byte) : List Char :=
  let n := b.toNat
  if n < 10 then [decimalDigit n]
  else if n < 100 then [decimalDigit (n / 10), decimalDigit (n % 10)]
  else [decimalDigit (n / 100), decimalDigit (n / 10 % 10), decimalDigit (n % 10)]

/-- A byte as two uppercase hexadecimal digits (R226). -/
def hexByte (b : Byte) : List Char := [hexDigit (b.toNat / 16), hexDigit (b.toNat % 16)]

/-! ### The output device -/

/-- The line the host prints for one element of `out`: its decimal value (R131, R221). -/
def outputLine (b : Byte) : List Char := decimalByte b ++ ['\n']

/-- The text the host prints for `out`, in emission order (R221). -/
def outputText (out : List Byte) : List Char := out.flatMap outputLine

/-! ### The trace -/

/-- The trace record (R37, R226): `pc`, the three bytes at `pc` (none at an address of 256 or more), the registers. -/
structure TraceRecord where
  pc : PcWord
  bytes : Vector (Option Byte) 3
  regs : Vector Byte 8
deriving DecidableEq, Repr

/-- The record emitted before the step of a state; its reads never fault (R226). -/
def State.traceRecord (s : State) : TraceRecord where
  pc := s.pc
  bytes := #v[s.mem.read s.pc.toNat, s.mem.read (s.pc.toNat + 1), s.mem.read (s.pc.toNat + 2)]
  regs := s.regs

/-- `pc` in the trace: two uppercase hexadecimal digits, and `100` for 256 (R226). -/
def tracePc (pc : PcWord) : List Char :=
  if pc.toNat < Config.memSize then hexByte (pc.setWidth 8) else '1' :: hexByte (pc.setWidth 8)

/-- A byte in the trace: two uppercase hexadecimal digits, and `--` for a byte out of range (R226). -/
def traceByte : Option Byte → List Char
  | none => ['-', '-']
  | some b => hexByte b

/-- One item of a trace line. -/
def TraceRecord.item (r : TraceRecord) : TraceItem → List Char
  | .text chars => chars
  | .pc => tracePc r.pc
  | .mem offset => traceByte r.bytes[offset]
  | .reg index => hexByte r.regs[index]

/-- The trace line under a `traceFormat` (R226, D19). -/
def TraceRecord.line (format : TraceFormat) (r : TraceRecord) : List Char := format.flatMap r.item

/-- The values a trace line must show: `pc`, the three bytes, the eight registers (R226). -/
def TraceItem.required : List TraceItem :=
  [.pc, .mem 0, .mem 1, .mem 2, .reg 0, .reg 1, .reg 2, .reg 3, .reg 4, .reg 5, .reg 6, .reg 7]

/-- A format shows every value exactly once (R226). -/
def TraceFormat.complete (format : TraceFormat) : Bool := TraceItem.required.all fun i => format.count i == 1

/-- The records of a run under fuel: one before each step (R226). -/
def traceRun : Nat → State → List TraceRecord
  | 0, _ => []
  | fuel + 1, s =>
    match step s with
    | .next t => s.traceRecord :: traceRun fuel t
    | .fault _ => []
    | .refused _ => []

/-! ### Assembler spelling -/

/-- The mnemonic of an operation (R78). -/
def mnemonic : Operation → List Char
  | .hlt => ['H', 'L', 'T']
  | .ret => ['R', 'E', 'T']
  | .push => ['P', 'U', 'S', 'H']
  | .pop => ['P', 'O', 'P']
  | .prn => ['P', 'R', 'N']
  | .call => ['C', 'A', 'L', 'L']
  | .ldi => ['L', 'D', 'I']
  | .add => ['A', 'D', 'D']
  | .mul => ['M', 'U', 'L']

/-- A register operand as `R<n>` (R83). -/
def registerText (r : Byte) : List Char := 'R' :: decimalByte r

/-- The assembler spelling of an instruction: the mnemonic, then the operands in byte order with commas between them
(R83, D18). -/
def assemblerText (i : Instr) : List Char :=
  match i with
  | .hlt | .ret => mnemonic i.operation
  | .push r | .pop r | .prn r | .call r => mnemonic i.operation ++ ' ' :: registerText r
  | .ldi r imm => mnemonic i.operation ++ ' ' :: registerText r ++ ',' :: decimalByte imm
  | .add r1 r2 | .mul r1 r2 => mnemonic i.operation ++ ' ' :: registerText r1 ++ ',' :: registerText r2

/-! ### Reading the assembler spelling (R83) -/

/-- The value of a digit, hexadecimal letters of either case included. -/
def digitValue (c : Char) : Option Nat :=
  if '0' ≤ c ∧ c ≤ '9' then some (c.toNat - 48)
  else if 'A' ≤ c ∧ c ≤ 'F' then some (c.toNat - 55)
  else if 'a' ≤ c ∧ c ≤ 'f' then some (c.toNat - 87)
  else none

/-- The digits of a numeral in a base, read from the value of those before them. -/
def readDigitsFrom (base : Nat) : Nat → List Char → Option Nat
  | n, [] => some n
  | n, c :: cs =>
    match digitValue c with
    | none => none
    | some d => if d < base then readDigitsFrom base (base * n + d) cs else none

/-- A numeral of at least one digit. -/
def readDigits (base : Nat) : List Char → Option Nat
  | [] => none
  | c :: cs => readDigitsFrom base 0 (c :: cs)

/-- A numeral in decimal, `0x` hexadecimal or `0b` binary (R83). -/
def readNumber : List Char → Option Nat
  | '0' :: 'x' :: cs => readDigits 16 cs
  | '0' :: 'b' :: cs => readDigits 2 cs
  | cs => readDigits 10 cs

/-- An immediate: a numeral of 0..255 (R77, R83). -/
def readImmediate (cs : List Char) : Option Byte :=
  match readNumber cs with
  | none => none
  | some n => if n < 256 then some (BitVec.ofNat 8 n) else none

/-- A register: `R0`..`R7`, or `SP` for R7 (R83). -/
def readRegister : List Char → Option Byte
  | ['S', 'P'] => some 7#8
  | ['R', c] =>
    match digitValue c with
    | none => none
    | some n => if n < 8 then some (BitVec.ofNat 8 n) else none
  | _ => none

/-- The texts between commas. -/
def splitCommas : List Char → List (List Char)
  | [] => [[]]
  | c :: cs =>
    if c = ',' then [] :: splitCommas cs
    else
      match splitCommas cs with
      | [] => [[c]]
      | w :: ws => (c :: w) :: ws

/-- The operand bytes of an operation from their texts, in byte order (R76, R83). -/
def readOperands (o : Operation) (texts : List (List Char)) : Option (List Byte) :=
  match o, texts with
  | .push, [r] | .pop, [r] | .prn, [r] | .call, [r] => (readRegister r).map fun r => [r]
  | .ldi, [r, imm] =>
    match readRegister r, readImmediate imm with
    | some r, some imm => some [r, imm]
    | _, _ => none
  | .add, [r1, r2] | .mul, [r1, r2] =>
    match readRegister r1, readRegister r2 with
    | some r1, some r2 => some [r1, r2]
    | _, _ => none
  | _, _ => none

/-- The one instruction an assembly line spells (R83, R84); none for any other text. -/
def assemble (line : List Char) : Option Instr :=
  match Operation.all.find? fun o => mnemonic o == line.takeWhile (· != ' ') with
  | none => none
  | some o =>
    match o, line.dropWhile (· != ' ') with
    | .hlt, [] => some .hlt
    | .ret, [] => some .ret
    | o, ' ' :: cs => (readOperands o (splitCommas cs)).bind o.build
    | _, _ => none

end Sys2Proof.Machine
end

