-- ==== Sys2Proof/Machine/Reference.lean ====
section
/-! DEFINITION. The step of R109 written line by line as its pseudocode stands, with the opcode bytes of R78 as
numbers: no decoder, no instruction type, no dispatcher. It is a second reading of the same rule, for the statement
that the machine's step agrees with it; the machine does not call it. -/

namespace Sys2Proof.Machine.Reference

/-- The nine defined opcodes, `DEFINED` (R78). -/
def defined : List Byte := [0x01#8, 0x11#8, 0x45#8, 0x46#8, 0x47#8, 0x50#8, 0x82#8, 0xA0#8, 0xA2#8]

/-- The register an operand byte of 0..7 names; used only after the byte is checked. -/
def index (r : Byte) : Fin 8 := Fin.ofNat 8 r.toNat

/-- `x[7] <- (x[7] - 1) mod 256`. -/
def decrement (s : State) : State := s.writeReg 7 (BitVec.ofNat 8 ((s.readReg 7).toNat + 255))

/-- `x[7] <- (x[7] + 1) mod 256`. -/
def increment (s : State) : State := s.writeReg 7 (BitVec.ofNat 8 ((s.readReg 7).toNat + 1))

/-- `x[R] <- MemRead(x[7], 1)`. -/
def loadTop (r : Byte) (s : State) : State := s.writeReg (index r) (s.loadByte (s.readReg 7))

/-- Would the handler wrap SP: a decrement from 0x00, or an increment from 0xFF (R171, R172, R190, R191). -/
def wouldWrap (op a : Byte) (s : State) : Bool :=
  if op = 0x45#8 ∨ op = 0x50#8 then s.readReg 7 == 0x00#8
  else if op = 0x46#8 then (loadTop a s).readReg 7 == 0xFF#8
  else if op = 0x11#8 then s.readReg 7 == 0xFF#8
  else false

/-- The handlers, each the pseudocode of its rule in its order (R130, R131, R151, R152, R171, R172, R190, R191). -/
def handler (op a b : Byte) (s : State) : State :=
  if op = 0x82#8 then s.writeReg (index a) b
  else if op = 0x47#8 then s.emit (s.readReg (index a))
  else if op = 0xA0#8 then s.writeReg (index a) (s.readReg (index a) + s.readReg (index b))
  else if op = 0xA2#8 then s.writeReg (index a) (s.readReg (index a) * s.readReg (index b))
  else if op = 0x45#8 then
    let s1 := decrement s
    s1.storeByte (s1.readReg 7) (s1.readReg (index a))
  else if op = 0x46#8 then increment (loadTop a s)
  else if op = 0x50#8 then
    let ret := BitVec.ofNat 8 (s.pc.toNat + 2)
    let s1 := decrement s
    let s2 := s1.storeByte (s1.readReg 7) ret
    s2.setPc (BitVec.ofNat 9 (s2.readReg (index a)).toNat)
  else if op = 0x11#8 then increment (s.setPc (BitVec.ofNat 9 (s.loadByte (s.readReg 7)).toNat))
  else s

/-- `step()` of R109, from a state with `state = RUNNING`; every `raise` is on the state at the start of the step. -/
def step (s : State) : State :=
  let pc := s.pc.toNat
  -- phase 1: fetch
  if pc ≥ 256 then s.raise .addressOutOfRange pc else
  let op := s.mem.get pc
  -- phase 2: decode
  let n := op.toNat / 64
  let alu := op.toNat / 32 % 2 = 1
  let pcc := op.toNat / 16 % 2 = 1
  if n = 3 then s.raise .unknownInstruction op.toNat else
  if op ∉ defined ∧ ¬ alu then s.raise .unknownInstruction op.toNat else
  -- phase 3: operand fetch
  if n ≥ 1 ∧ pc + 1 ≥ 256 then s.raise .addressOutOfRange (pc + 1) else
  let a := s.mem.get (pc + 1)
  if n = 2 ∧ pc + 2 ≥ 256 then s.raise .addressOutOfRange (pc + 2) else
  let b := s.mem.get (pc + 2)
  -- phase 4: dispatch checks
  if alu ∧ op ∉ [0xA0#8, 0xA2#8] then s.raise .unsupportedAluOperation op.toNat else
  if op ∉ [0x01#8, 0x11#8] ∧ a.toNat ≥ 8 then s.raise .invalidRegister a.toNat else
  if op ∈ [0xA0#8, 0xA2#8] ∧ b.toNat ≥ 8 then s.raise .invalidRegister b.toNat else
  if op = 0x50#8 ∧ pc + 2 ≥ 256 then s.raise .addressOutOfRange (pc + 2) else
  if s.spWrapPolicy = .fault ∧ wouldWrap op a s = true then s.raise .stackWrap (s.readReg 7).toNat else
  -- phase 4: execute the handler
  let s1 := handler op a b s
  -- phase 5: PC advance
  let s2 := if pcc then s1 else s1.setPc (BitVec.ofNat 9 (pc + 1 + n))
  -- phase 6: halt
  if op = 0x01#8 then s2.halt else s2

end Sys2Proof.Machine.Reference
end

