-- ==== Sys2Proof/Safety.lean ====
section
/-! DEFINITION. What counts as a safe run, and the words the statements use: the invariant, frames, and runs that
execute a given list of instructions. -/

/-! ### Stack movement of an instruction, as syntax -/

namespace Sys2Proof

/-- The instructions that move SP by one byte down (R171, R190). -/
def Instr.pushes : Instr → Bool
  | .push _ | .call _ => true
  | .hlt | .ret | .pop _ | .prn _ | .ldi _ _ | .add _ _ | .mul _ _ => false

/-- The instructions that move SP by one byte up (R172, R191). -/
def Instr.pops : Instr → Bool
  | .pop _ | .ret => true
  | .hlt | .push _ | .call _ | .prn _ | .ldi _ _ | .add _ _ | .mul _ _ => false

/-- The instructions that write R7 through their destination operand (R22). -/
def Instr.writesR7 : Instr → Bool
  | .ldi r _ | .pop r | .add r _ | .mul r _ => r == 7#8
  | .hlt | .ret | .push _ | .prn _ | .call _ => false

end Sys2Proof

namespace Sys2Proof.Machine

/-! ### Run states -/

/-- The machine has not faulted. -/
def State.notFaulted (s : State) : Bool :=
  match s.runState with
  | .running | .halted => true
  | .faulted _ => false

/-- No fault occurs in the first `fuel` steps. -/
def SafeRun (fuel : Nat) (s : State) : Prop := ∀ k, k ≤ fuel → (runSteps k s).notFaulted = true

/-! ### The invariant -/

/-- What a fault record may hold (R32, R210): an opcode byte of the right class, the address 256, an operand byte of
8..255, or, only under `spWrapPolicy = fault`, a value of SP. -/
def FaultRecord.valid (policy : SpWrapPolicy) (r : FaultRecord) : Prop :=
  match r.kind with
  | .unknownInstruction => ∃ op : Byte, r.info = op.toNat ∧ (classify op = .countThree ∨ classify op = .undefinedOther)
  | .unsupportedAluOperation => ∃ op : Byte, r.info = op.toNat ∧ classify op = .undefinedAlu
  | .addressOutOfRange => r.info = 256
  | .invalidRegister => 8 ≤ r.info ∧ r.info < 256
  | .stackWrap => policy = .fault ∧ r.info < 256

/-- The invariant: memory is canonical, `pc` is in 0..256 (R27), and in FAULTED the record is one a fault can leave and
names the `pc` the machine stands at (R32, R214). -/
structure State.Inv (s : State) : Prop where
  memory : s.mem.wf = true
  pcRange : s.pc.toNat ≤ 256
  record : ∀ r, s.runState = .faulted r → r.pc = s.pc ∧ r.valid s.spWrapPolicy

/-! ### Frames -/

/-- Every register but the listed ones reads as before. -/
def SameRegsExcept (written : List (Fin 8)) (s t : State) : Prop := ∀ j, j ∉ written → t.readReg j = s.readReg j

/-- Every byte of memory reads as before. -/
def SameMemory (s t : State) : Prop := ∀ a, t.mem.get a = s.mem.get a

/-- Every byte of memory but the one at the address reads as before. -/
def SameMemoryExcept (address : Nat) (s t : State) : Prop := ∀ a, a ≠ address → t.mem.get a = s.mem.get a

/-- The launch parameter, and the fields no more than one instruction writes, are as before: `out` (PRN) and the run
state (HLT and the faults). -/
def SameControl (s t : State) : Prop :=
  t.out = s.out ∧ t.runState = s.runState ∧ t.spWrapPolicy = s.spWrapPolicy

/-- The fault entry (R214): the record holds the kind, the `pc` and the information, and everything else is as it was
at the start of the step. -/
def Faults (kind : FaultKind) (info : Nat) (s t : State) : Prop :=
  t.runState = .faulted { kind := kind, pc := s.pc, info := info } ∧
    t.mem = s.mem ∧ t.regs = s.regs ∧ t.pc = s.pc ∧ t.out = s.out ∧ t.spWrapPolicy = s.spWrapPolicy

/-! ### Runs through a list of instructions -/

/-- A fault-free run from `s` to `t` whose steps fetch exactly the listed instructions. -/
def RunsThrough : List Instr → State → State → Prop
  | [], s, t => t = s
  | i :: is, s, t => ∃ rest u, s.fetched = .ok i rest ∧ step s = .next u ∧ u.notFaulted = true ∧ RunsThrough is u t

/-- Balanced sequences (R174): PUSH or CALL and POP or RET paired in LIFO order, with other instructions anywhere
between, none of which writes R7, and POP R7 nowhere but right after PUSH R7. -/
inductive Balanced : List Instr → Prop where
  | nil : Balanced []
  | other {i : Instr} (npush : i.pushes = false) (npop : i.pops = false) (nr7 : i.writesR7 = false) : Balanced [i]
  | pair {i j : Instr} {body : List Instr} (ipush : i.pushes = true) (jpop : j.pops = true) (nr7 : j.writesR7 = false)
      (inner : Balanced body) : Balanced (i :: body ++ [j])
  | pairR7 : Balanced [.push 7#8, .pop 7#8]
  | append {xs ys : List Instr} (left : Balanced xs) (right : Balanced ys) : Balanced (xs ++ ys)

end Sys2Proof.Machine
end

