-- ==== Sys2Proof/Certificates/Slice0/Obligations.lean ====
section
/-! DEFINITION. The statements for the provers. A docstring names the spec's sentence a statement formalises; where one
rests on a decision the spec marks as its own (D<n>), or on a log entry, it says so. -/

open Sys2Proof Sys2Proof.Machine

/-! ### Encoding -/

/-- Decoding an encoded instruction gives it back with the bytes after it, for every operand byte and under every
opcode map whose derived bits agree with its operations (30_encoding.md, R79), the spec's own among them. -/
def Obligations.DecodeOfEncodeIsTheInstruction : Prop :=
  (∀ m : OpcodeMap, m.Agrees → ∀ (i : Instr) (rest : List Byte), decodeWith m (encodeWith m i ++ rest) = .ok i rest) ∧
    ∀ (i : Instr) (rest : List Byte), decode (encode i ++ rest) = .ok i rest

/-- Each byte sequence has one meaning: bytes the decoder reads an instruction from are that instruction's encoding and
the bytes after it, under any opcode map. -/
def Obligations.DecodedBytesAreTheEncoding : Prop :=
  ∀ (m : OpcodeMap) (bytes : List Byte) (i : Instr) (rest : List Byte),
    decodeWith m bytes = .ok i rest → bytes = encodeWith m i ++ rest

/-- R79: the bits derived from each defined opcode agree with its operation, and the nine opcodes differ. The bytes of
six operations and the flag bits' places are the spec's decisions D1 and D2. -/
def Obligations.OpcodeBitsAgreeWithOperations : Prop := opcodes.Agrees

/-- R80: the four classes of opcode bytes, by their conditions and their sizes (the split of the undefined opcodes is the
spec's decision D3). -/
def Obligations.OpcodeBytesFallInFourClasses : Prop :=
  (∀ op : Byte,
    (classify op = .countThree ↔ operandCount op = 3) ∧
    (classify op = .undefinedAlu ↔ operandCount op ≠ 3 ∧ aluFlag op = true ∧ op ∉ [0xA0#8, 0xA2#8]) ∧
    (classify op = .undefinedOther ↔
      operandCount op ≠ 3 ∧ aluFlag op = false ∧ op ∉ [0x01#8, 0x11#8, 0x45#8, 0x46#8, 0x47#8, 0x50#8, 0x82#8]) ∧
    ∀ o, classify op = .defined o ↔ opcodes o = op) ∧
  ((List.range 256).countP fun n => (opcodes.lookup (BitVec.ofNat 8 n)).isSome) = 9 ∧
  ((List.range 256).countP fun n => classify (BitVec.ofNat 8 n) == .countThree) = 64 ∧
  ((List.range 256).countP fun n => classify (BitVec.ofNat 8 n) == .undefinedAlu) = 94 ∧
  ((List.range 256).countP fun n => classify (BitVec.ofNat 8 n) == .undefinedOther) = 89

/-- One word of each row of the opcode map (R78), written out in bits, decodes to its instruction. -/
def Obligations.SampleWordsDecode : Prop :=
  decode [0b00000001#8] = .ok .hlt [] ∧
  decode [0b00010001#8] = .ok .ret [] ∧
  decode [0b01000101#8, 0b00000011#8] = .ok (.push 3#8) [] ∧
  decode [0b01000110#8, 0b00000100#8] = .ok (.pop 4#8) [] ∧
  decode [0b01000111#8, 0b00000000#8] = .ok (.prn 0#8) [] ∧
  decode [0b01010000#8, 0b00000001#8] = .ok (.call 1#8) [] ∧
  decode [0b10000010#8, 0b00000000#8, 0b00001000#8] = .ok (.ldi 0#8 8#8) [] ∧
  decode [0b10100000#8, 0b00000010#8, 0b00000101#8] = .ok (.add 2#8 5#8) [] ∧
  decode [0b10100010#8, 0b00000110#8, 0b00000111#8] = .ok (.mul 6#8 7#8) []

/-- R72: "The value 3 spells no instruction". The operand count is the opcode's top two bits; a decoded instruction has
the length its count gives, and a count of 3 is an unknown instruction whatever follows. -/
def Obligations.OperandCountGivesTheLength : Prop :=
  ∀ (op : Byte) (rest : List Byte),
    operandCount op = op.toNat / 64 ∧
    (operandCount op = 3 → decode (op :: rest) = .error (.unknownInstruction op)) ∧
    ∀ i rest', decode (op :: rest) = .ok i rest' →
      operandCount op ≤ 2 ∧ (op :: rest).length = 1 + operandCount op + rest'.length

/-! ### The step -/

/-- When the bytes at `pc` decode to an instruction, well formed or not, the step of a RUNNING machine is `exec` of it
at the same state: the program counter's advance is inside the meanings (R107). -/
def Obligations.StepRunsTheDecodedInstruction : Prop :=
  ∀ (s : State) (i : Instr) (rest : List Byte),
    s.runState = .running → decode s.fetchBytes = .ok i rest → step s = exec i s

/-- An instruction whose encoding stands in memory at `pc` is the one the step executes. -/
def Obligations.InstructionInMemoryIsExecuted : Prop :=
  ∀ (s : State) (i : Instr), s.runState = .running →
    (∀ k (h : k < (encode i).length), s.mem.read (s.pc.toNat + k) = some (encode i)[k]) → step s = exec i s

/-- Placing an instruction's bits, numbered as the opcode table numbers them, makes it the one the next step executes,
from any state (log entry 8); the decoder reads it from the same number. -/
def Obligations.PlacedWordIsExecuted : Prop :=
  ∀ (s : State) (i : Instr),
    let nbits := 8 * (encode i).length
    let w := (encode i).foldr (fun b n => b.toNat + 256 * n) 0
    decodeTableWord nbits w = some i ∧ step (s.withFetchWord nbits w) = exec i (s.withFetchWord nbits w)

/-- 40_execution_loop.md, phase 1 (R102): the opcode is the byte at `pc`; that a `pc` of 256 or more raises
AddressOutOfRange(pc, pc), and nothing wraps, is the spec's decision D4 (log entry 11). -/
def Obligations.OpcodeFetchReadsPcOrFaults : Prop :=
  ∀ s : State, s.runState = .running →
    (256 ≤ s.pc.toNat → ∃ t, step s = .next t ∧ Faults .addressOutOfRange s.pc.toNat s t) ∧
    (s.pc.toNat < 256 → s.fetchBytes.head? = some (s.mem.get s.pc.toNat))

/-- 40_execution_loop.md, phase 2 (R103): decode gives `n = opcode[7:6]`, `alu = opcode[5]` and `pcc = opcode[4]`; a count-3 opcode, or an undefined one
with `alu = 0`, raises UnknownInstruction with the opcode before any operand fetch, also where its operand bytes would lie
past 0xFF; an undefined opcode with `alu = 1` goes on and faults in another way. The opcode bytes are the spec's decision
D1 (log entry 3), the places of the two flags D2 (log entry 4), the split by the ALU flag D3 (log entry 5). -/
def Obligations.DecodeSplitsTheOpcodeAndRejectsUnknown : Prop :=
  (∀ op : Byte, operandCount op = op.toNat / 64 ∧ (aluFlag op = true ↔ op.toNat / 32 % 2 = 1) ∧
    (pcControlFlag op = true ↔ op.toNat / 16 % 2 = 1)) ∧
  ∀ s : State, s.runState = .running → s.pc.toNat < 256 →
    (operandCount (s.mem.get s.pc.toNat) = 3 ∨
        (aluFlag (s.mem.get s.pc.toNat) = false ∧ ∀ o, opcodes o ≠ s.mem.get s.pc.toNat) →
      ∃ t, step s = .next t ∧ Faults .unknownInstruction (s.mem.get s.pc.toNat).toNat s t) ∧
    (operandCount (s.mem.get s.pc.toNat) ≠ 3 → aluFlag (s.mem.get s.pc.toNat) = true →
        (∀ o, opcodes o ≠ s.mem.get s.pc.toNat) →
      ∃ t kind info, step s = .next t ∧ Faults kind info s t ∧ kind ∈ [.addressOutOfRange, .unsupportedAluOperation])

/-- 40_execution_loop.md, phase 3 (R104, the spec's decision D4): an operand byte that would lie at 256 raises
AddressOutOfRange(pc, 256), whether or not the opcode is a defined one. -/
def Obligations.OperandFetchPastTheTopFaults : Prop :=
  ∀ s : State, s.runState = .running → s.pc.toNat < 256 →
    classify (s.mem.get s.pc.toNat) ≠ .countThree → classify (s.mem.get s.pc.toNat) ≠ .undefinedOther →
    256 ≤ s.pc.toNat + operandCount (s.mem.get s.pc.toNat) →
    ∃ t, step s = .next t ∧ Faults .addressOutOfRange 256 s t

/-- 60_exceptions.md (R212): UnsupportedAluOperation, with the requested tag, is raised after the operand fetch for the 94
undefined opcodes with the ALU flag. Which undefined opcodes raise it, and when, is the spec's decision D3 (log entry 5), on
the flag's place of D2 (log entry 4) and the opcode bytes of D1 (log entry 3). -/
def Obligations.UndefinedAluOpcodeFaultsAfterTheFetch : Prop :=
  (∀ s : State, s.runState = .running →
    s.pc.toNat + operandCount (s.mem.get s.pc.toNat) < 256 → classify (s.mem.get s.pc.toNat) = .undefinedAlu →
    ∃ t, step s = .next t ∧ Faults .unsupportedAluOperation (s.mem.get s.pc.toNat).toNat s t) ∧
  ((List.range 256).countP fun n => classify (BitVec.ofNat 8 n) == .undefinedAlu) = 94

/-- The step of a RUNNING machine, through decoder, dispatcher and meanings, is the pseudocode of R109 read line by line,
with the fault order of R110 (the spec's decisions D3 to D7, D9, D10 and D12, which R109 carries). -/
def Obligations.StepIsThePseudocode : Prop :=
  ∀ s : State, s.runState = .running → step s = .next (Reference.step s)

/-- R101: "A step exists only when `state = RUNNING`." A stopped machine has no step and `run` leaves it as it is. -/
def Obligations.StepExistsExactlyWhenRunning : Prop :=
  (∀ s : State, (∃ t, step s = .next t) ↔ s.runState = .running) ∧
    ∀ (fuel : Nat) (s : State), s.runState ≠ .running → runSteps fuel s = s

/-- R224: "HALTED, which HLT enters. HALTED is terminal": a step ends in HALTED exactly when it fetched HLT, and from
HALTED on `run` changes nothing. -/
def Obligations.HaltedIsEnteredByHltAndTerminal : Prop :=
  (∀ s t : State, step s = .next t → (t.runState = .halted ↔ ∃ rest, s.fetched = .ok .hlt rest)) ∧
    ∀ (fuel : Nat) (c : CoreInstance), c.core.runState = .halted → (run fuel c).core = c.core

/-- 60_exceptions.md, fault entry (R214, the spec's decision D11): a step that ends in FAULTED leaves memory, registers,
`pc` and `out` as they were, and the record names the faulting step's `pc`. -/
def Obligations.FaultsArePrecise : Prop :=
  ∀ (s t : State) (r : FaultRecord), step s = .next t → t.runState = .faulted r →
    r.pc = s.pc ∧ Faults r.kind r.info s t

/-- No fault is swallowed (R214): a run whose end is not FAULTED met no fault on the way. -/
def Obligations.UnfaultedEndMeansSafeRun : Prop :=
  ∀ (fuel : Nat) (s : State), (runSteps fuel s).notFaulted = true → SafeRun fuel s

/-! ### Invariants -/

/-- Every step keeps the invariant: canonical memory, `pc` in 0..256 (R27), and in FAULTED a record the spec allows,
AddressOutOfRange always with 256 (R32). -/
def Obligations.StepKeepsTheInvariant : Prop :=
  ∀ s t : State, s.Inv → step s = .next t → t.Inv

/-- The invariant holds after reset for every `regInit` and every wrap policy, and after any image that loads. -/
def Obligations.ResetMeetsTheInvariant : Prop :=
  ∀ (regInit : RegInit) (policy : SpWrapPolicy) (image : List Byte) (c : CoreInstance),
    (State.resetWith regInit policy).Inv ∧ (load image (construct regInit policy) = .next c → c.core.Inv)

/-- R34: `out` "starts empty at reset and only grows": a step leaves it, or it is a PRN and appends one byte, the
register's value. -/
def Obligations.OutputStartsEmptyAndOnlyGrows : Prop :=
  (∀ regInit policy, (State.resetWith regInit policy).out = []) ∧
    ∀ s t : State, step s = .next t → t.out = s.out ∨
      ∃ (r : Byte) (d : Fin 8) (rest : List Byte),
        s.fetched = .ok (.prn r) rest ∧ d.val = r.toNat ∧ t.out = s.out ++ [s.readReg d]

/-- R62: "Only two things mutate memory: the loader, before execution begins, and the instructions of rule R51(b)": a
step that changes memory is a PUSH or a CALL and changes the byte at SP - 1 alone; a load happens before `run` only. -/
def Obligations.OnlyPushCallAndLoaderWriteMemory : Prop :=
  (∀ s t : State, step s = .next t → t.mem = s.mem ∨
    ∃ i rest, s.fetched = .ok i rest ∧ i.pushes = true ∧ SameMemoryExcept (s.sp - 1#8).toNat s t) ∧
  ∀ image c c', load image c = .next c' → c.phase = .fresh

/-- No step writes the launch parameter `spWrapPolicy` (the model's own field, log entry 2). -/
def Obligations.LaunchParameterIsConstant : Prop :=
  ∀ s t : State, step s = .next t → t.spWrapPolicy = s.spWrapPolicy

/-- Distinct canonical memories differ in a byte: two canonical memories that read the same at every address are the
same list. -/
def Obligations.CanonicalMemoryIsDeterminedByItsBytes : Prop :=
  ∀ m m' : Memory, m.wf = true → m'.wf = true → (∀ a, a < 256 → m.get a = m'.get a) → m = m'

/-! ### The program counter -/

/-- 40_execution_loop.md, phase 5 (R107): with the PC-control flag clear, a step that raises no fault adds 1 + n to `pc`, and
the result may be 256 (the spec's decision D4, log entry 11); with it set, `pc` is what the handler set: the popped byte for
RET, the register's byte for CALL (CALL R7, whose byte changes within the step, has its own statement). The flag's place is
the spec's decision D2 (log entry 4), and that HLT advances too is D5 (log entry 12). -/
def Obligations.PcAdvancesUnlessTheHandlerSetsIt : Prop :=
  ∀ (s t : State) (i : Instr) (rest : List Byte),
    s.fetched = .ok i rest → step s = .next t → t.notFaulted = true →
    (pcControlFlag (s.mem.get s.pc.toNat) = false →
      t.pc.toNat = s.pc.toNat + 1 + operandCount (s.mem.get s.pc.toNat)) ∧
    (pcControlFlag (s.mem.get s.pc.toNat) = true →
      (i = .ret ∧ t.pc.toNat = (s.mem.get s.sp.toNat).toNat) ∨
      ∃ (r : Byte) (h : r.toNat < 8), i = .call r ∧ (r ≠ 7#8 → t.pc.toNat = (s.readReg ⟨r.toNat, h⟩).toNat))

/-- 44_control_transfer.md (R192): CALL and RET are the only control transfers: after any other instruction that raises no
fault `pc` is just past it. R192 excepts the halt; that HLT is included here is the spec's decision D5 (log entry 12). -/
def Obligations.OnlyCallAndRetTransferControl : Prop :=
  ∀ (s t : State) (i : Instr) (rest : List Byte),
    s.fetched = .ok i rest → step s = .next t → t.notFaulted = true →
    t.pc.toNat ≠ s.pc.toNat + (encode i).length → i = .ret ∨ ∃ r, i = .call r

/-- 10_state.md (R27, the spec's decision D4): `pc` never wraps and never passes 256, and only the automatic advance of
an instruction whose last byte is at 0xFF produces 256. -/
def Obligations.PcReachesTheTopOnlyByAdvance : Prop :=
  ∀ s t : State, s.pc.toNat ≤ 256 → step s = .next t →
    t.pc.toNat ≤ 256 ∧
    (t.notFaulted = true → t.pc.toNat = 256 →
      ∃ i rest, s.fetched = .ok i rest ∧ i.operation.setsPc = false ∧ s.pc.toNat + (encode i).length = 256)

/-! ### The instructions: result, frame and completion -/

/-- LDI (41_load_output_halt.md): completes for every valid register and every immediate, R7 included. -/
def Obligations.LdiLoadsTheImmediate : Prop :=
  ∀ (s : State) (r imm : Byte) (h : r.toNat < 8), ∃ t, exec (.ldi r imm) s = .next t ∧
    t.readReg ⟨r.toNat, h⟩ = imm ∧ SameRegsExcept [⟨r.toNat, h⟩] s t ∧ t.pc = s.pc + 3 ∧ SameMemory s t ∧
    SameControl s t

/-- PRN (41_load_output_halt.md): completes for every valid register and appends its value to `out`. -/
def Obligations.PrnEmitsTheRegister : Prop :=
  ∀ (s : State) (r : Byte) (h : r.toNat < 8), ∃ t, exec (.prn r) s = .next t ∧
    t.out = s.out ++ [s.readReg ⟨r.toNat, h⟩] ∧ SameRegsExcept [] s t ∧ t.pc = s.pc + 2 ∧ SameMemory s t ∧
    t.runState = s.runState ∧ t.spWrapPolicy = s.spWrapPolicy

/-- HLT as an instruction (41_load_output_halt.md): completes from every state. -/
def Obligations.HltAdvancesAndHalts : Prop :=
  ∀ s : State, ∃ t, exec .hlt s = .next t ∧ t.runState = .halted ∧ t.pc = s.pc + 1 ∧ SameRegsExcept [] s t ∧
    SameMemory s t ∧ t.out = s.out ∧ t.spWrapPolicy = s.spWrapPolicy

/-- 41_load_output_halt.md, HLT (R132; the advance before the halt is the spec's decision D5): HLT fetched at `pc` leaves
`pc + 1`, 256 when it stands at 0xFF, and HALTED; no instruction executes afterwards; its only fault is the fetch's at
256. -/
def Obligations.HltStepEndsTheRun : Prop :=
  ∀ s : State, s.runState = .running →
    (s.pc.toNat < 256 → s.mem.get s.pc.toNat = 0x01#8 → ∃ t, step s = .next t ∧
      t.runState = .halted ∧ t.pc.toNat = s.pc.toNat + 1 ∧ SameRegsExcept [] s t ∧ SameMemory s t ∧ t.out = s.out ∧
      ∀ fuel, runSteps fuel t = t) ∧
    (s.pc.toNat = 256 → ∃ t, step s = .next t ∧ Faults .addressOutOfRange 256 s t)

/-- ADD (42_alu.md): completes for every pair of valid registers, the same one twice and R7 included. -/
def Obligations.AddWritesTheSumModulo256 : Prop :=
  ∀ (s : State) (r1 r2 : Byte) (h1 : r1.toNat < 8) (h2 : r2.toNat < 8), ∃ t, exec (.add r1 r2) s = .next t ∧
    (t.readReg ⟨r1.toNat, h1⟩).toNat =
      ((s.readReg ⟨r1.toNat, h1⟩).toNat + (s.readReg ⟨r2.toNat, h2⟩).toNat) % 256 ∧
    SameRegsExcept [⟨r1.toNat, h1⟩] s t ∧ t.pc = s.pc + 3 ∧ SameMemory s t ∧ SameControl s t

/-- MUL (42_alu.md): completes for every pair of valid registers; the low byte of the exact product. -/
def Obligations.MulWritesTheProductModulo256 : Prop :=
  ∀ (s : State) (r1 r2 : Byte) (h1 : r1.toNat < 8) (h2 : r2.toNat < 8), ∃ t, exec (.mul r1 r2) s = .next t ∧
    (t.readReg ⟨r1.toNat, h1⟩).toNat =
      ((s.readReg ⟨r1.toNat, h1⟩).toNat * (s.readReg ⟨r2.toNat, h2⟩).toNat) % 256 ∧
    SameRegsExcept [⟨r1.toNat, h1⟩] s t ∧ t.pc = s.pc + 3 ∧ SameMemory s t ∧ SameControl s t

/-- 42_alu.md (R150, R153): ADD and MUL modulo 256, commutative in value; the ALU rejects every other tag by its opcode.
That the two tags are the bytes 0xA0 and 0xA2 is the spec's decision D1 (log entry 3). -/
def Obligations.AluAddsMultipliesAndRejects : Prop :=
  ∀ (v1 v2 : Byte),
    (∃ v, alu (aluTag 0xA0#8) v1 v2 = .value v ∧ v.toNat = (v1.toNat + v2.toNat) % 256) ∧
    (∃ v, alu (aluTag 0xA2#8) v1 v2 = .value v ∧ v.toNat = (v1.toNat * v2.toNat) % 256) ∧
    (∀ tag, tag = .add ∨ tag = .mul → alu tag v1 v2 = alu tag v2 v1) ∧
    ∀ op, op ∉ [0xA0#8, 0xA2#8] → alu (aluTag op) v1 v2 = .unsupported op

/-- PUSH (43_stack.md): SP goes down by one modulo 256 and the register's value is stored at the new SP; PUSH R7 stores the
decremented SP (the spec's decision D9). It completes for every SP under `wrap`, and under `fault` where SP is not 0. -/
def Obligations.PushStoresBelowTheStackPointer : Prop :=
  ∀ (s : State) (r : Byte) (h : r.toNat < 8), (s.spWrapPolicy = .fault → s.sp ≠ 0x00#8) →
    ∃ t, exec (.push r) s = .next t ∧
    s.pushAddress.toNat = (s.sp.toNat + 255) % 256 ∧ t.sp = s.pushAddress ∧ SameRegsExcept [7] s t ∧
    t.mem.get s.pushAddress.toNat = (if r = 7#8 then s.pushAddress else s.readReg ⟨r.toNat, h⟩) ∧
    SameMemoryExcept s.pushAddress.toNat s t ∧ t.pc = s.pc + 2 ∧ SameControl s t

/-- POP (43_stack.md): the register gets the byte at SP and SP goes up by one modulo 256; POP R7 ends with the loaded byte
plus one (the spec's decision D9). It completes for every SP under `wrap`, and under `fault` where no update wraps. -/
def Obligations.PopLoadsFromTheStackPointer : Prop :=
  ∀ (s : State) (r : Byte) (h : r.toNat < 8),
    (s.spWrapPolicy = .fault → (if r = 7#8 then s.mem.get s.sp.toNat else s.sp) ≠ 0xFF#8) →
    ∃ t, exec (.pop r) s = .next t ∧
    (r ≠ 7#8 → t.readReg ⟨r.toNat, h⟩ = s.mem.get s.sp.toNat ∧ t.sp.toNat = (s.sp.toNat + 1) % 256) ∧
    (r = 7#8 → t.sp.toNat = ((s.mem.get s.sp.toNat).toNat + 1) % 256) ∧
    SameRegsExcept [⟨r.toNat, h⟩, 7] s t ∧ SameMemory s t ∧ t.pc = s.pc + 2 ∧ SameControl s t

/-- CALL (44_control_transfer.md): pushes `pc + 2` as PUSH does and jumps to the register's value; CALL R7 jumps to the
decremented SP (the spec's decision D9). It completes where the return address is below 256 (the spec's decision D10). -/
def Obligations.CallPushesTheReturnAddressAndJumps : Prop :=
  ∀ (s : State) (r : Byte) (h : r.toNat < 8), s.pc.toNat + 2 < 256 → (s.spWrapPolicy = .fault → s.sp ≠ 0x00#8) →
    ∃ t, exec (.call r) s = .next t ∧
    s.pushAddress.toNat = (s.sp.toNat + 255) % 256 ∧ t.sp = s.pushAddress ∧ SameRegsExcept [7] s t ∧
    (t.mem.get s.pushAddress.toNat).toNat = s.pc.toNat + 2 ∧ SameMemoryExcept s.pushAddress.toNat s t ∧
    t.pc.toNat = (if r = 7#8 then s.pushAddress else s.readReg ⟨r.toNat, h⟩).toNat ∧ SameControl s t

/-- RET (44_control_transfer.md): `pc` is the byte at SP and SP goes up by one modulo 256. -/
def Obligations.RetPopsIntoPc : Prop :=
  ∀ s : State, (s.spWrapPolicy = .fault → s.sp ≠ 0xFF#8) → ∃ t, exec .ret s = .next t ∧
    t.pc.toNat = (s.mem.get s.sp.toNat).toNat ∧ t.sp.toNat = (s.sp.toNat + 1) % 256 ∧ SameRegsExcept [7] s t ∧
    SameMemory s t ∧ SameControl s t

/-- 60_exceptions.md (R215, the spec's decision D7): a register operand of 8..255 raises InvalidRegister with the byte, in
each of the seven instructions, operand A before operand B. -/
def Obligations.InvalidRegisterIsRejected : Prop :=
  ∀ (s : State) (r b : Byte), 8 ≤ r.toNat →
    (∀ i ∈ [Instr.push r, .pop r, .prn r, .call r, .ldi r b, .add r b, .mul r b],
      ∃ t, exec i s = .next t ∧ Faults .invalidRegister r.toNat s t) ∧
    (b.toNat < 8 → ∀ i ∈ [Instr.add b r, .mul b r], ∃ t, exec i s = .next t ∧ Faults .invalidRegister r.toNat s t)

/-- 44_control_transfer.md (the spec's decision D10): CALL whose return address does not fit in a byte raises
AddressOutOfRange with it and writes nothing. -/
def Obligations.CallAtTheTopFaults : Prop :=
  ∀ (s : State) (r : Byte), r.toNat < 8 → 256 ≤ s.pc.toNat + 2 →
    ∃ t, exec (.call r) s = .next t ∧ Faults .addressOutOfRange (s.pc.toNat + 2) s t

/-- 43_stack.md (R175, the spec's decision D6, log entry 2): under `spWrapPolicy = fault` a step that would wrap SP raises
StackWrap with SP before the step: PUSH and CALL at 0x00, RET and POP at 0xFF. That POP R7 wraps on a loaded 0xFF, whatever
SP is, follows from R172 in the order of the spec's decision D9 (log entry 14, DEDUCED). -/
def Obligations.StackWrapFaultsUnderTheFaultPolicy : Prop :=
  ∀ s : State, s.spWrapPolicy = .fault →
    (s.sp = 0x00#8 → ∀ r : Byte, r.toNat < 8 →
      (∃ t, exec (.push r) s = .next t ∧ Faults .stackWrap 0 s t) ∧
      (s.pc.toNat + 2 < 256 → ∃ t, exec (.call r) s = .next t ∧ Faults .stackWrap 0 s t)) ∧
    (s.sp = 0xFF#8 →
      (∃ t, exec .ret s = .next t ∧ Faults .stackWrap 255 s t) ∧
      ∀ r : Byte, r.toNat < 7 → ∃ t, exec (.pop r) s = .next t ∧ Faults .stackWrap 255 s t) ∧
    (s.mem.get s.sp.toNat = 0xFF#8 → ∃ t, exec (.pop 7#8) s = .next t ∧ Faults .stackWrap s.sp.toNat s t)

/-- The conservative mode refines the hardware's (43_stack.md, R175): a step under `fault` either raises StackWrap or is
the step under `wrap`. -/
def Obligations.FaultPolicyRefinesWrapPolicy : Prop :=
  ∀ s t : State, s.spWrapPolicy = .fault → step s = .next t →
    Faults .stackWrap s.sp.toNat s t ∨
    step { s with spWrapPolicy := .wrap } = .next { t with spWrapPolicy := .wrap }

/-- R176: "The hardware checks no stack bounds": under the hardware's policy the four stack instructions complete at every
SP, wherever the program lies, with SP moved by one; POP R7, which loads SP itself, completes too. -/
def Obligations.NoStackBoundsAreChecked : Prop :=
  ∀ s : State, s.spWrapPolicy = .wrap →
    (∃ t, exec .ret s = .next t ∧ t.runState = s.runState ∧ t.sp = s.sp + 1#8) ∧
    ∀ (r : Byte), r.toNat < 8 →
      (∃ t, exec (.push r) s = .next t ∧ t.runState = s.runState ∧ t.sp = s.sp - 1#8) ∧
      (∃ t, exec (.pop r) s = .next t ∧ t.runState = s.runState ∧ (r ≠ 7#8 → t.sp = s.sp + 1#8)) ∧
      (s.pc.toNat + 2 < 256 → ∃ t, exec (.call r) s = .next t ∧ t.runState = s.runState ∧ t.sp = s.sp - 1#8)

/-! ### The stack and the call protocol -/

/-- 43_stack.md (R174): PUSH then POP of the same register, R7 included, restores every register. -/
def Obligations.PushThenPopRestoresTheRegisters : Prop :=
  ∀ (s : State) (r : Byte), r.toNat < 8 → (s.spWrapPolicy = .fault → s.sp ≠ 0x00#8) →
    ∃ t u, exec (.push r) s = .next t ∧ exec (.pop r) t = .next u ∧ SameRegsExcept [] s u ∧
      SameMemoryExcept s.pushAddress.toNat s u

/-- 43_stack.md (R174): a fault-free run through a balanced sequence returns SP to its start. -/
def Obligations.BalancedRunRestoresTheStackPointer : Prop :=
  ∀ (is : List Instr) (s t : State), Balanced is → RunsThrough is s t → t.sp = s.sp

/-- 44_control_transfer.md (R193): CALL and then at once RET comes back to the instruction after the CALL, with SP and every
register as before. -/
def Obligations.CallThenRetReturns : Prop :=
  ∀ (s u : State) (r : Byte), RunsThrough [.call r, .ret] s u →
    u.pc.toNat = s.pc.toNat + 2 ∧ u.sp = s.sp ∧ SameRegsExcept [] s u

/-- 20_memory.md (R60, the spec's decision D16): the byte a PUSH or CALL stores at the next `pc` is the opcode the next
step fetches. -/
def Obligations.StoredByteIsFetchedNext : Prop :=
  ∀ (s t : State) (r : Byte) (h : r.toNat < 8),
    (exec (.push r) s = .next t → t.runState = .running → t.pc.toNat = s.pushAddress.toNat →
      t.fetchBytes.head? = some (s.decSp.readReg ⟨r.toNat, h⟩)) ∧
    (exec (.call r) s = .next t → t.runState = .running → t.pc.toNat = s.pushAddress.toNat →
      t.fetchBytes.head? = some (BitVec.ofNat 8 (s.pc.toNat + 2)))

/-! ### Reset, load and the host -/

/-- 70_reset_and_hazards.md (R240, R248): construction with any launch parameters and loading any image of at most 256 bytes: memory is the image and
then zeros, R0..R6 are `regInit`, SP is 0xF4, `pc` is 0, `out` is empty, there is no fault record, and the first fetch is
at address 0. That the machine holds RUNNING already before `run` is log entry 7 (DEDUCED), and that its state holds the
wrap policy is log entry 2 (DESIGN CHOICE). -/
def Obligations.ResetAndLoadGiveTheStartState : Prop :=
  ∀ (regInit : RegInit) (policy : SpWrapPolicy) (image : List Byte), image.length ≤ 256 →
    ∃ c, load image (construct regInit policy) = .next c ∧
    (∀ k (h : k < image.length), c.core.mem.get k = image[k]) ∧
    (∀ k, image.length ≤ k → c.core.mem.get k = 0x00#8) ∧
    (∀ j : Fin 7, c.core.readReg j.castSucc = regInit[j]) ∧ c.core.sp = 0xF4#8 ∧ c.core.pc = 0#9 ∧
    c.core.out = [] ∧ c.core.runState = .running ∧ c.core.spWrapPolicy = policy ∧
    c.core.fetchBytes.head? = some (c.core.mem.get 0)

/-- 70_reset_and_hazards.md (R249, the spec's decision D14): an image over 256 bytes is refused, and so is any image once
`run` has been invoked. -/
def Obligations.LoaderRefusesLongAndLateImages : Prop :=
  ∀ (image : List Byte) (c : CoreInstance),
    (c.phase = .fresh → 256 < image.length → load image c = .refused (.imageTooLong image.length)) ∧
    ∀ fuel, load image (run fuel c) = .refused .loadAfterRun

/-- 60_exceptions.md (R217): a machine run on no image faults at its first step with UnknownInstruction(0, 0x00), for every
`regInit` and policy, and nothing else changes. -/
def Obligations.EmptyImageFaultsAtOnce : Prop :=
  ∀ (regInit : RegInit) (policy : SpWrapPolicy) (fuel : Nat), 0 < fuel →
    Faults .unknownInstruction 0 (State.resetWith regInit policy) (run fuel (construct regInit policy)).core

/-- 70_reset_and_hazards.md (R247): a `pc` that runs into a zero byte faults with UnknownInstruction(pc, 0x00). -/
def Obligations.RunningIntoZeroFaults : Prop :=
  ∀ s : State, s.runState = .running → s.pc.toNat < 256 → s.mem.get s.pc.toNat = 0x00#8 →
    ∃ t, step s = .next t ∧ Faults .unknownInstruction 0 s t

/-- Output is never read back (20_memory.md R50, "The only output path is PRN"): other earlier output changes no step but
for standing before its output. -/
def Obligations.OutputIsNeverRead : Prop :=
  ∀ (s t : State) (earlier : List Byte), step s = .next t →
    step { s with out := earlier ++ s.out } = .next { t with out := earlier ++ t.out }

/-- 60_exceptions.md (R221, the spec's decision D15): the host's text is one line for each element of `out`, in order, and
nothing else; each line is decimal digits, at least one and with no leading zero, whose value is the byte; 0
prints `0` (R131). -/
def Obligations.OutputLinesAreDecimal : Prop :=
  outputText [] = [] ∧
  (∀ (out : List Byte) (b : Byte), outputText (out ++ [b]) = outputText out ++ decimalByte b ++ ['\n']) ∧
  ∀ b : Byte,
    (decimalByte b).foldl (fun n c => 10 * n + (c.toNat - 48)) 0 = b.toNat ∧
    (∀ c ∈ decimalByte b, 48 ≤ c.toNat ∧ c.toNat ≤ 57) ∧
    decimalByte b ≠ [] ∧
    ((decimalByte b).head? = some '0' → decimalByte b = ['0'])

/-- 60_exceptions.md (R226, the spec's decision D19): one record is emitted before each step, and none on a stopped machine;
the record holds `pc`, the three bytes at `pc` (none for those at 256 or more) and the registers. The line shows the items
of any `traceFormat` in its order and nothing else, each item the value it names, as two uppercase hexadecimal digits, `--`
for no byte, `100` for a `pc` of 256. -/
def Obligations.TraceShowsTheStateBeforeTheStep : Prop :=
  (∀ (fuel : Nat) (s : State), traceRun 0 s = [] ∧
    (∀ t, step s = .next t → traceRun (fuel + 1) s = s.traceRecord :: traceRun fuel t) ∧
    (s.runState ≠ .running → traceRun fuel s = [])) ∧
  (∀ s : State, s.traceRecord.pc = s.pc ∧ s.traceRecord.regs = s.regs ∧
    ∀ k : Fin 3, s.traceRecord.bytes[k] =
      if s.pc.toNat + k.val < 256 then some (s.mem.get (s.pc.toNat + k.val)) else none) ∧
  (∀ r : TraceRecord, r.line [] = [] ∧
    ∀ (item : TraceItem) (format : TraceFormat), r.line (item :: format) = r.item item ++ r.line format) ∧
  (∀ r : TraceRecord,
    (∀ chars, r.item (.text chars) = chars) ∧
    (r.pc.toNat < 256 → r.item .pc = hexByte (BitVec.ofNat 8 r.pc.toNat)) ∧
    (r.pc = 256#9 → r.item .pc = ['1', '0', '0']) ∧
    (∀ (k : Fin 3) (b : Byte), r.bytes[k] = some b → r.item (.mem k) = hexByte b) ∧
    (∀ k : Fin 3, r.bytes[k] = none → r.item (.mem k) = ['-', '-']) ∧
    ∀ j : Fin 8, r.item (.reg j) = hexByte r.regs[j]) ∧
  ∀ b : Byte, ∃ hi lo, hexByte b = [hi, lo] ∧
    ['0', '1', '2', '3', '4', '5', '6', '7', '8', '9', 'A', 'B', 'C', 'D', 'E', 'F'][b.toNat / 16]? = some hi ∧
    ['0', '1', '2', '3', '4', '5', '6', '7', '8', '9', 'A', 'B', 'C', 'D', 'E', 'F'][b.toNat % 16]? = some lo

/-- 30_encoding.md, assembler syntax (R83, R84, the spec's decision D18): reading back the spelling of a well-formed
instruction gives that instruction. -/
def Obligations.AssemblerSpellingReadsBack : Prop :=
  ∀ i : Instr, i.wellFormed = true → assemble (assemblerText i) = some i
end

