-- ==== Sys2Proof/Laws/Decode.lean ====
section
/-! SUPPORT. What the decoder answers on the bytes of each opcode, and the parts it is made of. -/

namespace Sys2Proof

theorem Operation.mem_all (o : Operation) : o ∈ Operation.all := by cases o <;> decide

theorem withOperands_enough {n : Nat} {ops rest : List Byte} {k : List Byte → List Byte → DecodeResult}
    (h : ops.length = n) : withOperands n (ops ++ rest) k = k ops rest := by
  subst h; simp [withOperands]

theorem withOperands_missing {n : Nat} {rest : List Byte} {k : List Byte → List Byte → DecodeResult}
    (h : rest.length < n) : withOperands n rest k = .error (.missingByte (rest.length + 1)) :=
  if_neg (by omega)

/-- An instruction is built from its own operation and operands. -/
theorem Instr.build_operands (i : Instr) : i.operation.build i.operands = some i := by cases i <;> rfl

/-- What is built has the operation and the operands it was built from. -/
theorem Operation.build_eq_some {o : Operation} {ops : List Byte} {i : Instr} (h : o.build ops = some i) :
    i.operation = o ∧ i.operands = ops := by
  unfold Operation.build at h
  split at h <;> first | (cases h; exact ⟨rfl, rfl⟩) | cases h

theorem Instr.operands_length (i : Instr) : i.operands.length = i.operation.operandCount := by cases i <;> rfl

theorem decode_hlt (rest : List Byte) : decode (0x01#8 :: rest) = .ok .hlt rest := by
  simp [decode, decodeWith, show classifyWith opcodes 0x01#8 = .defined .hlt by decide, withOperands,
    show operandCount 0x01#8 = 0 by decide, Operation.build]

theorem decode_ret (rest : List Byte) : decode (0x11#8 :: rest) = .ok .ret rest := by
  simp [decode, decodeWith, show classifyWith opcodes 0x11#8 = .defined .ret by decide, withOperands,
    show operandCount 0x11#8 = 0 by decide, Operation.build]

theorem decode_ldi (r imm : Byte) (rest : List Byte) : decode (0x82#8 :: r :: imm :: rest) = .ok (.ldi r imm) rest := by
  simp [decode, decodeWith, show classifyWith opcodes 0x82#8 = .defined .ldi by decide, withOperands,
    show operandCount 0x82#8 = 2 by decide, Operation.build]

end Sys2Proof
end

