-- ==== Sys2Proof/Laws/Memory.lean ====
section
/-! SUPPORT. The laws of memory: a read after a write, and that every memory operation keeps the canonical form. -/

namespace Sys2Proof.Machine

/-! ### Reading -/

@[simp] theorem Memory.get_nil (a : Nat) : Memory.get [] a = Memory.unlisted := rfl

theorem Memory.get_cons (b : Nat) (v : Byte) (m : Memory) (a : Nat) :
    Memory.get ((b, v) :: m) a = if a = b then v else Memory.get m a := rfl

theorem Memory.erase_cons (b : Nat) (v : Byte) (m : Memory) (a : Nat) :
    Memory.erase ((b, v) :: m) a = if b = a then Memory.erase m a else (b, v) :: Memory.erase m a := by
  by_cases h : b = a <;> simp [Memory.erase, h]

theorem Memory.get_erase_same (m : Memory) (a : Nat) : (m.erase a).get a = Memory.unlisted := by
  induction m with
  | nil => rfl
  | cons c m ih =>
    obtain ⟨b, v⟩ := c
    rw [Memory.erase_cons]
    split
    · exact ih
    · next h => rw [Memory.get_cons, if_neg (fun e => h e.symm)]; exact ih

theorem Memory.get_erase_other (m : Memory) {a a' : Nat} (h : a' ≠ a) : (m.erase a).get a' = m.get a' := by
  induction m with
  | nil => rfl
  | cons c m ih =>
    obtain ⟨b, v⟩ := c
    rw [Memory.erase_cons, Memory.get_cons]
    split
    · next e => subst e; rw [if_neg h]; exact ih
    · rw [Memory.get_cons, ih]

theorem Memory.get_insert_other (m : Memory) (v : Byte) {a a' : Nat} (h : a' ≠ a) :
    (m.insert a v).get a' = m.get a' := by
  induction m with
  | nil => simp [Memory.insert, Memory.get_cons, h]
  | cons c m ih =>
    obtain ⟨b, w⟩ := c
    unfold Memory.insert
    split
    · rw [Memory.get_cons, if_neg h]
    · rw [Memory.get_cons, Memory.get_cons, ih]

/-- An inserted entry is read where the address was not listed. -/
theorem Memory.get_insert_same (m : Memory) (a : Nat) (v : Byte) : ((m.erase a).insert a v).get a = v := by
  induction m with
  | nil => simp [Memory.erase, Memory.insert, Memory.get_cons]
  | cons c m ih =>
    obtain ⟨b, w⟩ := c
    rw [Memory.erase_cons]
    split
    · exact ih
    · next h =>
      unfold Memory.insert
      split
      · rw [Memory.get_cons, if_pos rfl]
      · rw [Memory.get_cons, if_neg (fun e => h e.symm)]; exact ih

/-- A read after a write to the same address gives the value written (R55). -/
@[simp] theorem Memory.get_set_same (m : Memory) (a : Nat) (v : Byte) : (m.set a v).get a = v := by
  unfold Memory.set
  split
  · next h => rw [h]; exact m.get_erase_same a
  · exact m.get_insert_same a v

/-- A write leaves every other address alone. -/
theorem Memory.get_set_other (m : Memory) (v : Byte) {a a' : Nat} (h : a' ≠ a) : (m.set a v).get a' = m.get a' := by
  unfold Memory.set
  split
  · exact m.get_erase_other h
  · rw [Memory.get_insert_other _ _ h, m.get_erase_other h]

/-- Reading after a write, in one equation. -/
theorem Memory.get_set (m : Memory) (a a' : Nat) (v : Byte) :
    (m.set a v).get a' = if a' = a then v else m.get a' := by
  split
  · next h => subst h; simp
  · next h => exact m.get_set_other v h

/-! ### The canonical form -/

theorem Memory.wfFrom_cons (low a : Nat) (v : Byte) (m : Memory) :
    Memory.wfFrom low ((a, v) :: m) = true ↔
      low ≤ a ∧ a < Config.memSize ∧ v ≠ Memory.unlisted ∧ Memory.wfFrom (a + 1) m = true := by
  simp [Memory.wfFrom, and_assoc]

theorem Memory.wfFrom_lower {low low' : Nat} {m : Memory} (h : low' ≤ low) (hm : Memory.wfFrom low m = true) :
    Memory.wfFrom low' m = true := by
  cases m with
  | nil => rfl
  | cons c m =>
    obtain ⟨a, v⟩ := c
    rw [Memory.wfFrom_cons] at hm ⊢
    exact ⟨h.trans hm.1, hm.2⟩

theorem Memory.wfFrom_erase {low : Nat} {m : Memory} (a : Nat) (h : Memory.wfFrom low m = true) :
    Memory.wfFrom low (m.erase a) = true := by
  induction m generalizing low with
  | nil => rfl
  | cons c m ih =>
    obtain ⟨b, v⟩ := c
    rw [Memory.wfFrom_cons] at h
    rw [Memory.erase_cons]
    split
    · exact Memory.wfFrom_lower (by omega) (ih h.2.2.2)
    · rw [Memory.wfFrom_cons]; exact ⟨h.1, h.2.1, h.2.2.1, ih h.2.2.2⟩

/-- Inserting an entry for an address that is not listed keeps the form. -/
theorem Memory.wfFrom_insert_erase {low a : Nat} {m : Memory} {v : Byte} (hlow : low ≤ a) (ha : a < Config.memSize)
    (hv : v ≠ Memory.unlisted) (h : Memory.wfFrom low m = true) :
    Memory.wfFrom low ((m.erase a).insert a v) = true := by
  induction m generalizing low with
  | nil => exact (Memory.wfFrom_cons low a v []).mpr ⟨hlow, ha, hv, rfl⟩
  | cons c m ih =>
    obtain ⟨b, w⟩ := c
    rw [Memory.wfFrom_cons] at h
    rw [Memory.erase_cons]
    split
    · next e => exact ih hlow (Memory.wfFrom_lower (by omega) h.2.2.2)
    · next e =>
      unfold Memory.insert
      split
      · next hab =>
        exact (Memory.wfFrom_cons ..).mpr ⟨hlow, ha, hv, (Memory.wfFrom_cons ..).mpr
          ⟨hab, h.2.1, h.2.2.1, Memory.wfFrom_erase a h.2.2.2⟩⟩
      · exact (Memory.wfFrom_cons ..).mpr ⟨h.1, h.2.1, h.2.2.1, ih (by omega) h.2.2.2⟩

/-- A write below 256 keeps the canonical form. -/
theorem Memory.wf_set {m : Memory} {a : Nat} (v : Byte) (ha : a < Config.memSize) (h : m.wf = true) :
    (m.set a v).wf = true := by
  unfold Memory.set
  split
  · exact Memory.wfFrom_erase a h
  · next hv => exact Memory.wfFrom_insert_erase (Nat.zero_le a) ha hv h

/-- Copying bytes that end below 256 keeps the canonical form. -/
theorem Memory.wf_storeFrom {m : Memory} {a : Nat} {bytes : List Byte} (ha : a + bytes.length ≤ Config.memSize)
    (h : m.wf = true) : (m.storeFrom a bytes).wf = true := by
  induction bytes generalizing m a with
  | nil => exact h
  | cons v vs ih =>
    rw [List.length_cons] at ha
    exact ih (by omega) (Memory.wf_set v (by omega) h)

/-- A stack store keeps the canonical form: its address is a byte. -/
theorem State.wf_storeByte {s : State} (a v : Byte) (h : s.mem.wf = true) : (s.storeByte a v).mem.wf = true :=
  Memory.wf_set v a.isLt h

/-- The copy of bytes leaves the addresses below it alone. -/
theorem Memory.get_storeFrom_below (m : Memory) {a a' : Nat} (bytes : List Byte) (h : a' < a) :
    (m.storeFrom a bytes).get a' = m.get a' := by
  induction bytes generalizing m a with
  | nil => rfl
  | cons v vs ih =>
    rw [Memory.storeFrom, ih _ (by omega), Memory.get_set_other _ _ (by omega)]

/-- An address past the listed ones, in the canonical form, reads as an unlisted one. -/
theorem Memory.get_below_wfFrom {low a : Nat} {m : Memory} (h : Memory.wfFrom low m = true) (ha : a < low) :
    m.get a = Memory.unlisted := by
  induction m generalizing low with
  | nil => rfl
  | cons c m ih =>
    obtain ⟨b, v⟩ := c
    rw [Memory.wfFrom_cons] at h
    rw [Memory.get_cons, if_neg (by omega)]
    exact ih h.2.2.2 (by omega)

/-! ### The checked read -/

theorem Memory.read_eq_some (m : Memory) {a : Nat} (h : a < Config.memSize) : m.read a = some (m.get a) := if_pos h

theorem Memory.read_eq_none (m : Memory) {a : Nat} (h : Config.memSize ≤ a) : m.read a = none :=
  if_neg (Nat.not_lt.mpr h)

end Sys2Proof.Machine
end

