-- ==== Sys2Proof/Laws/Fetch.lean ====
section
/-! SUPPORT. What the fetch reads at `pc`, and the step of a running or stopped machine. -/

namespace Sys2Proof.Machine

theorem Memory.bytesFrom_in_range (m : Memory) {a : Nat} (k : Nat) (h : a < Config.memSize) :
    m.bytesFrom a (k + 1) = m.get a :: m.bytesFrom (a + 1) k := by
  rw [Memory.bytesFrom, Memory.read_eq_some m h]

theorem Memory.bytesFrom_out_of_range (m : Memory) {a : Nat} (k : Nat) (h : Config.memSize ≤ a) :
    m.bytesFrom a k = [] := by
  cases k with
  | zero => rfl
  | succ k => rw [Memory.bytesFrom, Memory.read_eq_none m h]

/-- The fetch reads as many of its bytes as lie below 256. -/
theorem Memory.bytesFrom_length (m : Memory) (a k : Nat) :
    (m.bytesFrom a k).length = min k (Config.memSize - a) := by
  induction k generalizing a with
  | zero => simp [Memory.bytesFrom]
  | succ k ih =>
    by_cases h : a < Config.memSize
    · rw [m.bytesFrom_in_range k h, List.length_cons, ih]; omega
    · rw [m.bytesFrom_out_of_range _ (Nat.not_lt.mp h)]; simp; omega

theorem Memory.bytesFrom_getElem? (m : Memory) (a k j : Nat) (hj : j < k) :
    (m.bytesFrom a k)[j]? = m.read (a + j) := by
  induction k generalizing a j with
  | zero => omega
  | succ k ih =>
    by_cases h : a < Config.memSize
    · rw [m.bytesFrom_in_range k h]
      cases j with
      | zero => simp [m.read_eq_some h]
      | succ j => rw [List.getElem?_cons_succ, ih (a + 1) j (by omega), Nat.add_right_comm, Nat.add_assoc]
    · rw [m.bytesFrom_out_of_range _ (Nat.not_lt.mp h), m.read_eq_none (by omega)]; rfl

theorem State.fetchBytes_length (s : State) : s.fetchBytes.length = min 3 (Config.memSize - s.pc.toNat) :=
  s.mem.bytesFrom_length _ _

/-- Writing a field the fetch does not read leaves it alone. -/
theorem State.fetchBytes_congr {s t : State} (hm : t.mem = s.mem) (hp : t.pc = s.pc) : t.fetchBytes = s.fetchBytes := by
  simp [State.fetchBytes, hm, hp]

theorem step_running {s : State} (h : s.runState = .running) : step s = cycle s := by unfold step; rw [h]
theorem step_halted {s : State} (h : s.runState = .halted) : step s = .fault .noStepHalted := by unfold step; rw [h]
theorem step_faulted {s : State} {r : FaultRecord} (h : s.runState = .faulted r) :
    step s = .fault (.noStepFaulted r) := by unfold step; rw [h]

/-- A step that answers a next state is a cycle of a running machine. -/
theorem step_next {s t : State} (h : step s = .next t) : s.runState = .running ∧ cycle s = .next t := by
  unfold step at h
  split at h
  · next hr => exact ⟨hr, h⟩
  · cases h
  · cases h

/-- All a cycle can do: run the decoded instruction, or take the decode's fault. -/
theorem cycle_next {s t : State} (h : cycle s = .next t) :
    (∃ i rest, s.fetched = .ok i rest ∧ exec i s = .next t) ∨ (∃ e, s.fetched = .error e ∧ t = s.raiseDecode e) := by
  unfold cycle at h
  split at h
  · next i rest hf => exact .inl ⟨i, rest, hf, h⟩
  · next e hf => cases h; exact .inr ⟨e, hf, rfl⟩

end Sys2Proof.Machine
end

