-- ==== Sys2Proof/Laws/State.lean ====
section
/-! SUPPORT. One lemma per field per update of State, so that no later proof unfolds a record update, and the laws of
the register file. -/

namespace Sys2Proof.Machine

/-! ### writeReg -/

@[simp] theorem State.writeReg_mem (s : State) (i : Fin 8) (v : Byte) : (s.writeReg i v).mem = s.mem := rfl
@[simp] theorem State.writeReg_regs (s : State) (i : Fin 8) (v : Byte) : (s.writeReg i v).regs = s.regs.set i v := rfl
@[simp] theorem State.writeReg_pc (s : State) (i : Fin 8) (v : Byte) : (s.writeReg i v).pc = s.pc := rfl
@[simp] theorem State.writeReg_runState (s : State) (i : Fin 8) (v : Byte) : (s.writeReg i v).runState = s.runState := rfl
@[simp] theorem State.writeReg_out (s : State) (i : Fin 8) (v : Byte) : (s.writeReg i v).out = s.out := rfl
@[simp] theorem State.writeReg_spWrapPolicy (s : State) (i : Fin 8) (v : Byte) : (s.writeReg i v).spWrapPolicy = s.spWrapPolicy := rfl

/-! ### storeByte -/

@[simp] theorem State.storeByte_mem (s : State) (a v : Byte) : (s.storeByte a v).mem = s.mem.set a.toNat v := rfl
@[simp] theorem State.storeByte_regs (s : State) (a v : Byte) : (s.storeByte a v).regs = s.regs := rfl
@[simp] theorem State.storeByte_pc (s : State) (a v : Byte) : (s.storeByte a v).pc = s.pc := rfl
@[simp] theorem State.storeByte_runState (s : State) (a v : Byte) : (s.storeByte a v).runState = s.runState := rfl
@[simp] theorem State.storeByte_out (s : State) (a v : Byte) : (s.storeByte a v).out = s.out := rfl
@[simp] theorem State.storeByte_spWrapPolicy (s : State) (a v : Byte) : (s.storeByte a v).spWrapPolicy = s.spWrapPolicy := rfl

/-! ### setPc -/

@[simp] theorem State.setPc_mem (s : State) (p : PcWord) : (s.setPc p).mem = s.mem := rfl
@[simp] theorem State.setPc_regs (s : State) (p : PcWord) : (s.setPc p).regs = s.regs := rfl
@[simp] theorem State.setPc_pc (s : State) (p : PcWord) : (s.setPc p).pc = p := rfl
@[simp] theorem State.setPc_runState (s : State) (p : PcWord) : (s.setPc p).runState = s.runState := rfl
@[simp] theorem State.setPc_out (s : State) (p : PcWord) : (s.setPc p).out = s.out := rfl
@[simp] theorem State.setPc_spWrapPolicy (s : State) (p : PcWord) : (s.setPc p).spWrapPolicy = s.spWrapPolicy := rfl

/-! ### emit -/

@[simp] theorem State.emit_mem (s : State) (v : Byte) : (s.emit v).mem = s.mem := rfl
@[simp] theorem State.emit_regs (s : State) (v : Byte) : (s.emit v).regs = s.regs := rfl
@[simp] theorem State.emit_pc (s : State) (v : Byte) : (s.emit v).pc = s.pc := rfl
@[simp] theorem State.emit_runState (s : State) (v : Byte) : (s.emit v).runState = s.runState := rfl
@[simp] theorem State.emit_out (s : State) (v : Byte) : (s.emit v).out = s.out ++ [v] := rfl
@[simp] theorem State.emit_spWrapPolicy (s : State) (v : Byte) : (s.emit v).spWrapPolicy = s.spWrapPolicy := rfl

/-! ### halt -/

@[simp] theorem State.halt_mem (s : State) : (s.halt).mem = s.mem := rfl
@[simp] theorem State.halt_regs (s : State) : (s.halt).regs = s.regs := rfl
@[simp] theorem State.halt_pc (s : State) : (s.halt).pc = s.pc := rfl
@[simp] theorem State.halt_runState (s : State) : (s.halt).runState = .halted := rfl
@[simp] theorem State.halt_out (s : State) : (s.halt).out = s.out := rfl
@[simp] theorem State.halt_spWrapPolicy (s : State) : (s.halt).spWrapPolicy = s.spWrapPolicy := rfl

/-! ### raise -/

@[simp] theorem State.raise_mem (s : State) (k : FaultKind) (n : Nat) : (s.raise k n).mem = s.mem := rfl
@[simp] theorem State.raise_regs (s : State) (k : FaultKind) (n : Nat) : (s.raise k n).regs = s.regs := rfl
@[simp] theorem State.raise_pc (s : State) (k : FaultKind) (n : Nat) : (s.raise k n).pc = s.pc := rfl
@[simp] theorem State.raise_runState (s : State) (k : FaultKind) (n : Nat) : (s.raise k n).runState = .faulted { kind := k, pc := s.pc, info := n } := rfl
@[simp] theorem State.raise_out (s : State) (k : FaultKind) (n : Nat) : (s.raise k n).out = s.out := rfl
@[simp] theorem State.raise_spWrapPolicy (s : State) (k : FaultKind) (n : Nat) : (s.raise k n).spWrapPolicy = s.spWrapPolicy := rfl

/-! ### setSp -/

@[simp] theorem State.setSp_mem (s : State) (v : Byte) : (s.setSp v).mem = s.mem := rfl
@[simp] theorem State.setSp_pc (s : State) (v : Byte) : (s.setSp v).pc = s.pc := rfl
@[simp] theorem State.setSp_runState (s : State) (v : Byte) : (s.setSp v).runState = s.runState := rfl
@[simp] theorem State.setSp_out (s : State) (v : Byte) : (s.setSp v).out = s.out := rfl
@[simp] theorem State.setSp_spWrapPolicy (s : State) (v : Byte) : (s.setSp v).spWrapPolicy = s.spWrapPolicy := rfl

/-! ### decSp -/

@[simp] theorem State.decSp_mem (s : State) : (s.decSp).mem = s.mem := rfl
@[simp] theorem State.decSp_pc (s : State) : (s.decSp).pc = s.pc := rfl
@[simp] theorem State.decSp_runState (s : State) : (s.decSp).runState = s.runState := rfl
@[simp] theorem State.decSp_out (s : State) : (s.decSp).out = s.out := rfl
@[simp] theorem State.decSp_spWrapPolicy (s : State) : (s.decSp).spWrapPolicy = s.spWrapPolicy := rfl

/-! ### incSp -/

@[simp] theorem State.incSp_mem (s : State) : (s.incSp).mem = s.mem := rfl
@[simp] theorem State.incSp_pc (s : State) : (s.incSp).pc = s.pc := rfl
@[simp] theorem State.incSp_runState (s : State) : (s.incSp).runState = s.runState := rfl
@[simp] theorem State.incSp_out (s : State) : (s.incSp).out = s.out := rfl
@[simp] theorem State.incSp_spWrapPolicy (s : State) : (s.incSp).spWrapPolicy = s.spWrapPolicy := rfl

/-! ### The program counter's advance writes only `pc` -/

@[simp] theorem State.advancePc_mem (s : State) (o : Operation) : (s.advancePc o).mem = s.mem := by
  unfold State.advancePc; split <;> rfl

@[simp] theorem State.advancePc_regs (s : State) (o : Operation) : (s.advancePc o).regs = s.regs := by
  unfold State.advancePc; split <;> rfl

@[simp] theorem State.advancePc_runState (s : State) (o : Operation) : (s.advancePc o).runState = s.runState := by
  unfold State.advancePc; split <;> rfl

@[simp] theorem State.advancePc_out (s : State) (o : Operation) : (s.advancePc o).out = s.out := by
  unfold State.advancePc; split <;> rfl

@[simp] theorem State.advancePc_spWrapPolicy (s : State) (o : Operation) : (s.advancePc o).spWrapPolicy = s.spWrapPolicy := by
  unfold State.advancePc; split <;> rfl

/-! ### The register file -/

/-- A register reads as what was written to it (R9, R22). -/
@[simp] theorem State.readReg_writeReg_same (s : State) (i : Fin 8) (v : Byte) : (s.writeReg i v).readReg i = v := by
  simp [State.readReg, State.writeReg]

/-- A write leaves every other register alone. -/
theorem State.readReg_writeReg_other (s : State) (v : Byte) {i j : Fin 8} (h : j ≠ i) :
    (s.writeReg i v).readReg j = s.readReg j := by
  have h' : i.val ≠ j.val := fun e => h (Fin.ext e.symm)
  simp [State.readReg, State.writeReg, h']

/-- Reading after a write, in one equation. -/
theorem State.readReg_writeReg (s : State) (i j : Fin 8) (v : Byte) :
    (s.writeReg i v).readReg j = if j = i then v else s.readReg j := by
  split
  · next h => subst h; simp
  · next h => exact s.readReg_writeReg_other v h

/-- A register reads the same in states whose register files are the same. -/
theorem State.readReg_congr {s t : State} (h : t.regs = s.regs) (i : Fin 8) : t.readReg i = s.readReg i := by
  simp [State.readReg, h]

@[simp] theorem State.readReg_storeByte (s : State) (a v : Byte) (i : Fin 8) : (s.storeByte a v).readReg i = s.readReg i := rfl
@[simp] theorem State.readReg_setPc (s : State) (p : PcWord) (i : Fin 8) : (s.setPc p).readReg i = s.readReg i := rfl
@[simp] theorem State.readReg_emit (s : State) (v : Byte) (i : Fin 8) : (s.emit v).readReg i = s.readReg i := rfl
@[simp] theorem State.readReg_halt (s : State) (i : Fin 8) : (s.halt).readReg i = s.readReg i := rfl
@[simp] theorem State.readReg_raise (s : State) (k : FaultKind) (n : Nat) (i : Fin 8) : (s.raise k n).readReg i = s.readReg i := rfl
@[simp] theorem State.readReg_advancePc (s : State) (o : Operation) (i : Fin 8) :
    (s.advancePc o).readReg i = s.readReg i := State.readReg_congr (s.advancePc_regs o) i

/-! ### The stack pointer -/

@[simp] theorem State.sp_setSp (s : State) (v : Byte) : (s.setSp v).sp = v := s.readReg_writeReg_same _ v
@[simp] theorem State.sp_decSp (s : State) : s.decSp.sp = s.sp - 1#8 := s.sp_setSp _
@[simp] theorem State.sp_incSp (s : State) : s.incSp.sp = s.sp + 1#8 := s.sp_setSp _
@[simp] theorem State.sp_storeByte (s : State) (a v : Byte) : (s.storeByte a v).sp = s.sp := rfl
@[simp] theorem State.sp_setPc (s : State) (p : PcWord) : (s.setPc p).sp = s.sp := rfl
@[simp] theorem State.sp_advancePc (s : State) (o : Operation) : (s.advancePc o).sp = s.sp := s.readReg_advancePc o _

/-- Writing SP leaves R0..R6 alone. -/
theorem State.readReg_setSp (s : State) (v : Byte) (j : Fin 8) :
    (s.setSp v).readReg j = if j = 7 then v else s.readReg j := s.readReg_writeReg 7 j v

theorem State.readReg_decSp (s : State) (j : Fin 8) :
    s.decSp.readReg j = if j = 7 then s.sp - 1#8 else s.readReg j := s.readReg_setSp _ j

theorem State.readReg_incSp (s : State) (j : Fin 8) :
    s.incSp.readReg j = if j = 7 then s.sp + 1#8 else s.readReg j := s.readReg_setSp _ j

end Sys2Proof.Machine
end

