-- ==== Sys2Proof/Laws/Ops.lean ====
section
/-! SUPPORT. One lemma per shared operation that says once everything it can answer, for the proofs to cite instead of
unfolding it. -/

namespace Sys2Proof.Machine

/-! ### Register operands -/

theorem withRegister_valid {r : Byte} {s : State} {k : Fin 8 → Answer} (h : r.toNat < 8) :
    withRegister r s k = k ⟨r.toNat, h⟩ := dif_pos h

theorem withRegister_invalid {r : Byte} {s : State} {k : Fin 8 → Answer} (h : 8 ≤ r.toNat) :
    withRegister r s k = .next (s.raise .invalidRegister r.toNat) := dif_neg (Nat.not_lt.mpr h)

/-- All a register operand can do: go on with its register, or raise InvalidRegister. -/
theorem withRegister_next {r : Byte} {s t : State} {k : Fin 8 → Answer} (h : withRegister r s k = .next t) :
    (∃ hr : r.toNat < 8, k ⟨r.toNat, hr⟩ = .next t) ∨ (8 ≤ r.toNat ∧ t = s.raise .invalidRegister r.toNat) := by
  by_cases hr : r.toNat < 8
  · rw [withRegister_valid hr] at h; exact .inl ⟨hr, h⟩
  · rw [withRegister_invalid (Nat.not_lt.mp hr)] at h
    cases h; exact .inr ⟨Nat.not_lt.mp hr, rfl⟩

/-! ### The StackWrap guard -/

theorem guardWrap_pass {w : Bool} {s : State} {k : Answer} (h : s.spWrapPolicy = .fault → w = false) :
    guardWrap w s k = k := if_neg fun c => by simp [h c.1] at c

theorem guardWrap_raise {w : Bool} {s : State} {k : Answer} (hp : s.spWrapPolicy = .fault) (hw : w = true) :
    guardWrap w s k = .next (s.raise .stackWrap s.sp.toNat) := if_pos ⟨hp, hw⟩

/-- All the guard can do: go on, or, under the fault policy when SP would wrap, raise StackWrap. -/
theorem guardWrap_next {w : Bool} {s t : State} {k : Answer} (h : guardWrap w s k = .next t) :
    ((s.spWrapPolicy = .fault → w = false) ∧ k = .next t) ∨
      (s.spWrapPolicy = .fault ∧ w = true ∧ t = s.raise .stackWrap s.sp.toNat) := by
  by_cases c : s.spWrapPolicy = .fault ∧ w = true
  · rw [guardWrap_raise c.1 c.2] at h; cases h; exact .inr ⟨c.1, c.2, rfl⟩
  · have hp : s.spWrapPolicy = .fault → w = false := fun hp => by simpa [hp] using c
    rw [guardWrap_pass hp] at h; exact .inl ⟨hp, h⟩

/-! ### The advance of each operation (R107): its opcode's count and PC-control flag, computed -/

theorem State.advancePc_hlt (s : State) : s.advancePc .hlt = s.setPc (s.pc + 1) := rfl
theorem State.advancePc_push (s : State) : s.advancePc .push = s.setPc (s.pc + 2) := rfl
theorem State.advancePc_pop (s : State) : s.advancePc .pop = s.setPc (s.pc + 2) := rfl
theorem State.advancePc_prn (s : State) : s.advancePc .prn = s.setPc (s.pc + 2) := rfl
theorem State.advancePc_ldi (s : State) : s.advancePc .ldi = s.setPc (s.pc + 3) := rfl
theorem State.advancePc_add (s : State) : s.advancePc .add = s.setPc (s.pc + 3) := rfl
theorem State.advancePc_mul (s : State) : s.advancePc .mul = s.setPc (s.pc + 3) := rfl
theorem State.advancePc_call (s : State) : s.advancePc .call = s := rfl
theorem State.advancePc_ret (s : State) : s.advancePc .ret = s := rfl

/-! ### The ALU -/

theorem aluTag_add : aluTag (opcodes .add) = .add := rfl
theorem aluTag_mul : aluTag (opcodes .mul) = .mul := rfl

/-- The sum modulo 256 is the byte sum. -/
theorem alu_add (v1 v2 : Byte) : alu .add v1 v2 = .value (v1 + v2) := by
  simp [alu, BitVec.ofNat_add]

/-- The product modulo 256 is the byte product. -/
theorem alu_mul (v1 v2 : Byte) : alu .mul v1 v2 = .value (v1 * v2) := by
  simp [alu, BitVec.ofNat_mul]

theorem execAdd_valid {r1 r2 : Byte} {s : State} (h1 : r1.toNat < 8) (h2 : r2.toNat < 8) :
    execAdd r1 r2 s =
      .next ((s.writeReg ⟨r1.toNat, h1⟩ (s.readReg ⟨r1.toNat, h1⟩ + s.readReg ⟨r2.toNat, h2⟩)).advancePc .add) := by
  unfold execAdd execAlu
  rw [withRegister_valid h1, withRegister_valid h2, aluTag_add, alu_add]

theorem execMul_valid {r1 r2 : Byte} {s : State} (h1 : r1.toNat < 8) (h2 : r2.toNat < 8) :
    execMul r1 r2 s =
      .next ((s.writeReg ⟨r1.toNat, h1⟩ (s.readReg ⟨r1.toNat, h1⟩ * s.readReg ⟨r2.toNat, h2⟩)).advancePc .mul) := by
  unfold execMul execAlu
  rw [withRegister_valid h1, withRegister_valid h2, aluTag_mul, alu_mul]

/-! ### Every meaning answers a next state: no instruction faults or is refused -/

theorem withRegister_answers {r : Byte} {s : State} {k : Fin 8 → Answer} (h : ∀ d, ∃ t, k d = .next t) :
    ∃ t, withRegister r s k = .next t := by
  unfold withRegister; split
  · exact h _
  · exact ⟨_, rfl⟩

theorem guardWrap_answers {w : Bool} {s : State} {k : Answer} (h : ∃ t, k = .next t) :
    ∃ t, guardWrap w s k = .next t := by
  unfold guardWrap; split
  · exact ⟨_, rfl⟩
  · exact h

end Sys2Proof.Machine
end

