-- ==== Sys2Proof/Laws/PerInstr.lean ====
section
/-! SUPPORT. Statements made for every instruction, one lemma per constructor. -/

namespace Sys2Proof.Laws.EncodedLength

/-- The encoding of an instruction is one byte longer than the operand count in bits 7:6 of its opcode byte (R70,
R72), and no longer than three bytes. -/
def Statement (i : Instr) : Prop :=
  (encode i).length = 1 + operandCount ((encode i).headD 0#8) ∧ (encode i).length ≤ 3

theorem of_operation {i : Instr} (h : i.operands.length = operandCount (opcodes i.operation))
    (h2 : i.operands.length ≤ 2) : Statement i := by
  simp only [Statement, encode, encodeWith, List.length_cons, List.headD_cons]; omega

theorem hlt : Statement .hlt := of_operation (by decide) (by decide)
theorem ret : Statement .ret := of_operation (by decide) (by decide)
theorem push (r : Byte) : Statement (.push r) := of_operation (show 1 = operandCount 0x45#8 by decide) (Nat.le_succ 1)
theorem pop (r : Byte) : Statement (.pop r) := of_operation (show 1 = operandCount 0x46#8 by decide) (Nat.le_succ 1)
theorem prn (r : Byte) : Statement (.prn r) := of_operation (show 1 = operandCount 0x47#8 by decide) (Nat.le_succ 1)
theorem call (r : Byte) : Statement (.call r) := of_operation (show 1 = operandCount 0x50#8 by decide) (Nat.le_succ 1)
theorem ldi (r imm : Byte) : Statement (.ldi r imm) := of_operation (show 2 = operandCount 0x82#8 by decide) (Nat.le_refl 2)
theorem add (r1 r2 : Byte) : Statement (.add r1 r2) := of_operation (show 2 = operandCount 0xA0#8 by decide) (Nat.le_refl 2)
theorem mul (r1 r2 : Byte) : Statement (.mul r1 r2) := of_operation (show 2 = operandCount 0xA2#8 by decide) (Nat.le_refl 2)

end Sys2Proof.Laws.EncodedLength
end

