-- ==== Sys2Proof/Tests/Slice0.lean ====
section
/-! SUPPORT. The model's own tests. Expected results come from spec/95_test_vectors.md (its sections are named) and from
words written out from spec/30_encoding.md R78. The second half gives, for each statement with hypotheses, a concrete
state and operands that meet all of them together. -/

namespace Sys2Proof.Tests

open Sys2Proof.Machine

/-! ### Helpers -/

/-- The next state of an answer, if it is one. -/
def nextOf : Answer → Option State
  | .next s => some s
  | .fault _ => none
  | .refused _ => none

/-- A reset machine with bytes at `pc`. -/
def codeAt (pc : PcWord) (bytes : List Byte) : State :=
  { State.reset with pc := pc, mem := Memory.storeFrom [] pc.toNat bytes }

/-- What a step leaves of a register, with `pc`. -/
def regAndPc (i : Fin 8) (s : State) : Option (Byte × PcWord) := (nextOf (step s)).map fun t => (t.readReg i, t.pc)

/-- The run state after a step. -/
def stateAfter (s : State) : Option RunState := (nextOf (step s)).map State.runState

/-- FAULTED with a record. -/
def fault (kind : FaultKind) (pc : PcWord) (info : Nat) : Option RunState := some (.faulted ⟨kind, pc, info⟩)

/-! ### Well-formedness smoke: an ill-formed term for each check -/

theorem test_wf_push_refused : (Instr.push 8#8).wellFormed = false := by decide
theorem test_wf_pop_refused : (Instr.pop 9#8).wellFormed = false := by decide
theorem test_wf_prn_refused : (Instr.prn 255#8).wellFormed = false := by decide
theorem test_wf_call_refused : (Instr.call 128#8).wellFormed = false := by decide
theorem test_wf_ldi_refused : (Instr.ldi 8#8 0#8).wellFormed = false := by decide
theorem test_wf_add_first_refused : (Instr.add 8#8 0#8).wellFormed = false := by decide
theorem test_wf_add_second_refused : (Instr.add 0#8 8#8).wellFormed = false := by decide
theorem test_wf_mul_first_refused : (Instr.mul 16#8 0#8).wellFormed = false := by decide
theorem test_wf_mul_second_refused : (Instr.mul 0#8 16#8).wellFormed = false := by decide
theorem test_wf_ldi_accepts_any_immediate : (Instr.ldi 7#8 255#8).wellFormed = true := by decide

/-! ### Decoding: a word of each row, bit by bit (R78) -/

theorem test_decode_hlt : decode [0b00000001#8] = .ok .hlt [] := by decide
theorem test_decode_ret : decode [0b00010001#8, 0b11111111#8] = .ok .ret [0xFF#8] := by decide
theorem test_decode_push : decode [0b01000101#8, 0b00000101#8] = .ok (.push 5#8) [] := by decide
theorem test_decode_pop : decode [0b01000110#8, 0b00000111#8] = .ok (.pop 7#8) [] := by decide
theorem test_decode_prn : decode [0b01000111#8, 0b00001001#8] = .ok (.prn 9#8) [] := by decide
theorem test_decode_call : decode [0b01010000#8, 0b00000010#8] = .ok (.call 2#8) [] := by decide
theorem test_decode_ldi : decode [0b10000010#8, 0b00000011#8, 0b11111111#8] = .ok (.ldi 3#8 255#8) [] := by decide
theorem test_decode_add : decode [0b10100000#8, 0b00000001#8, 0b00000110#8] = .ok (.add 1#8 6#8) [] := by decide
theorem test_decode_mul : decode [0b10100010#8, 0b00000100#8, 0b00000000#8] = .ok (.mul 4#8 0#8) [] := by decide

/-- 2.1: opcodes of the undefined classes. -/
theorem test_decode_undefined :
    decode [0x00#8, 0#8, 1#8] = .error (.unknownInstruction 0x00#8) ∧
    decode [0x54#8, 0#8, 1#8] = .error (.unknownInstruction 0x54#8) ∧
    decode [0xFF#8] = .error (.unknownInstruction 0xFF#8) ∧
    decode [0x65#8, 0#8, 1#8] = .error (.unsupportedAluOperation 0x65#8) ∧
    decode [0xA7#8, 0#8, 1#8] = .error (.unsupportedAluOperation 0xA7#8) := by decide

/-- Bytes that end early: the missing byte is named (R104). -/
theorem test_decode_short :
    decode [] = .error (.missingByte 0) ∧ decode [0x45#8] = .error (.missingByte 1) ∧
    decode [0x82#8, 0#8] = .error (.missingByte 2) ∧ decode [0xA1#8] = .error (.missingByte 1) := by decide

/-- R73, R74: the flag bits of the nine opcodes. -/
theorem test_opcode_flags :
    (Operation.all.map fun o => (aluFlag (opcodes o), pcControlFlag (opcodes o))) =
      [(false, false), (false, true), (false, false), (false, false), (false, false), (false, true), (false, false),
        (true, false), (true, false)] := by decide

theorem test_table_word_ldi : decodeTableWord 8 0x82 = some (.ldi 0#8 0#8) := by decide
theorem test_table_word_masks_above_nbits : decodeTableWord 8 0xFFFF01 = some .hlt := by decide
theorem test_table_word_operand_order : decodeTableWord 24 0x0201A0 = some (.add 1#8 2#8) := by decide

/-! ### The first step after reset runs the placed instruction -/

theorem test_placed_ldi_runs : regAndPc 0 (State.reset.withFetchWord 24 0x080082) = some (8#8, 3#9) := by decide
theorem test_placed_at_the_top_moves_to_zero :
    regAndPc 3 (({ State.reset with pc := 255#9, runState := .halted } : State).withFetchWord 24 0x090382) =
      some (9#8, 3#9) := by decide

/-! ### One step of each instruction (95_test_vectors.md 2.2 to 2.9) -/

theorem test_ldi_at_FD : regAndPc 0 (codeAt 0xFD#9 [0x82#8, 0#8, 5#8]) = some (5#8, 256#9) := by decide
theorem test_ldi_invalid_register : stateAfter (codeAt 0#9 [0x82#8, 8#8, 5#8]) = fault .invalidRegister 0#9 8 := by decide

theorem test_prn_prints_sp :
    (nextOf (step (codeAt 0#9 [0x47#8, 7#8]))).map (fun t => (t.out, t.pc)) = some ([244#8], 2#9) := by decide
theorem test_prn_appends_last :
    (nextOf (step { codeAt 0#9 [0x47#8, 7#8] with out := [1#8] })).map State.out = some [1#8, 244#8] := by decide

theorem test_hlt_at_FF :
    (nextOf (step (codeAt 0xFF#9 [0x01#8]))).map (fun t => (t.pc, t.runState)) = some (256#9, .halted) := by decide

theorem test_add_wraps :
    regAndPc 0 (((codeAt 0#9 [0xA0#8, 0#8, 1#8]).writeReg 0 200#8).writeReg 1 100#8) = some (44#8, 3#9) := by decide
theorem test_add_first_operand_checked_first :
    stateAfter (codeAt 0#9 [0xA0#8, 8#8, 9#8]) = fault .invalidRegister 0#9 8 := by decide

theorem test_mul_low_byte :
    regAndPc 0 (((codeAt 0#9 [0xA2#8, 0#8, 1#8]).writeReg 0 13#8).writeReg 1 20#8) = some (4#8, 3#9) := by decide
theorem test_mul_same_register : regAndPc 0 ((codeAt 0#9 [0xA2#8, 0#8, 0#8]).writeReg 0 3#8) = some (9#8, 3#9) := by decide

theorem test_push_r7_stores_decremented :
    (nextOf (step (codeAt 0#9 [0x45#8, 7#8]))).map (fun t => (t.sp, t.mem.get 0xF3)) = some (0xF3#8, 0xF3#8) := by decide
theorem test_push_wrap_faults_under_fault_policy :
    stateAfter { (codeAt 0#9 [0x45#8, 0#8]).setSp 0#8 with spWrapPolicy := .fault } = fault .stackWrap 0#9 0 := by decide

theorem test_pop_r7_increments_the_loaded_byte :
    regAndPc 7 (((codeAt 0#9 [0x46#8, 7#8]).storeByte 0xF3#8 0x40#8).setSp 0xF3#8) = some (0x41#8, 2#9) := by decide
theorem test_pop_wraps :
    (nextOf (step (((codeAt 0#9 [0x46#8, 0#8]).storeByte 0xFF#8 5#8).setSp 0xFF#8))).map (fun t => (t.readReg 0, t.sp)) =
      some (5#8, 0#8) := by decide

theorem test_call_at_FD :
    (nextOf (step ((codeAt 0xFD#9 [0x50#8, 1#8]).writeReg 1 0x20#8))).map (fun t => (t.sp, t.mem.get 0xF3, t.pc)) =
      some (0xF3#8, 0xFF#8, 0x20#9) := by decide
theorem test_call_at_FE :
    stateAfter ((codeAt 0xFE#9 [0x50#8, 1#8]).writeReg 1 0x20#8) = fault .addressOutOfRange 0xFE#9 256 := by decide

theorem test_ret_wraps :
    regAndPc 7 (((codeAt 0#9 [0x11#8]).storeByte 0xFF#8 0x30#8).setSp 0xFF#8) = some (0#8, 0x30#9) := by decide
theorem test_ret_on_empty_stack : regAndPc 7 (codeAt 0#9 [0x11#8]) = some (0xF5#8, 0#9) := by decide

/-! ### Fault order (2.10) -/

theorem test_fault_order :
    stateAfter (codeAt 0xFF#9 [0xC0#8]) = fault .unknownInstruction 0xFF#9 0xC0 ∧
    stateAfter (codeAt 0xFF#9 [0x83#8]) = fault .unknownInstruction 0xFF#9 0x83 ∧
    stateAfter (codeAt 0xFF#9 [0xA1#8]) = fault .addressOutOfRange 0xFF#9 256 ∧
    stateAfter (codeAt 0#9 [0xA1#8, 0#8, 9#8]) = fault .unsupportedAluOperation 0#9 0xA1 ∧
    stateAfter (codeAt 0xFE#9 [0x50#8, 9#8]) = fault .invalidRegister 0xFE#9 9 ∧
    stateAfter (codeAt 256#9 []) = fault .addressOutOfRange 256#9 256 := by decide

/-! ### The host's side -/

/-- R249: 257 bytes do not load. -/
theorem test_load_limit :
    load (List.replicate 257 1#8) (construct Config.regInit .wrap) = .refused (.imageTooLong 257) := by
  rw [load, construct, List.length_replicate]; rfl

theorem test_output_text : outputText [44#8, 0#8, 255#8] = ['4', '4', '\n', '0', '\n', '2', '5', '5', '\n'] := by decide

/-- R226: `100` for a `pc` of 256, `--` for each byte out of range. -/
theorem test_trace_line :
    (codeAt 256#9 []).traceRecord.line [.pc, .text [' '], .mem 0, .text [' '], .reg 7] =
      ['1', '0', '0', ' ', '-', '-', ' ', 'F', '4'] := by decide

theorem test_assembler_text : assemblerText (.ldi 0#8 8#8) = ['L', 'D', 'I', ' ', 'R', '0', ',', '8'] := by decide

/-- R83: `SP` for R7, and hexadecimal and binary immediates. -/
theorem test_assemble :
    assemble ['P', 'U', 'S', 'H', ' ', 'S', 'P'] = some (.push 7#8) ∧
    assemble ['L', 'D', 'I', ' ', 'R', '1', ',', '0', 'x', '0', 'B'] = some (.ldi 1#8 11#8) ∧
    assemble ['L', 'D', 'I', ' ', 'R', '2', ',', '0', 'b', '1', '0', '1'] = some (.ldi 2#8 5#8) ∧
    assemble ['P', 'U', 'S', 'H', ' ', 'R', '8'] = none := by decide

/-! ### Witnesses: states and operands that meet a statement's hypotheses -/

/-- Another opcode map that keeps R79: MUL at 0xA3. -/
def otherMap : OpcodeMap
  | .mul => 0xA3#8
  | o => opcodes o

/-- DecodeOfEncodeIsTheInstruction. -/
theorem witness_agreeing_map : otherMap.Agrees := by
  refine ⟨fun o => ?_, fun o p => ?_⟩
  · cases o <;> decide
  · cases o <;> cases p <;> decide

/-- DecodedBytesAreTheEncoding. -/
theorem witness_decoded_bytes : decodeWith otherMap [0xA3#8, 0#8, 1#8, 2#8] = .ok (.mul 0#8 1#8) [2#8] := by decide

/-- OperandCountGivesTheLength, both clauses. -/
theorem witness_operand_count :
    operandCount 0xC0#8 = 3 ∧ decode (0x45#8 :: [3#8, 4#8]) = .ok (.push 3#8) [4#8] := by decide

/-- StepRunsTheDecodedInstruction, PcAdvancesUnlessTheHandlerSetsIt (flag clear), at the top of memory. -/
theorem witness_decoded_step :
    (codeAt 0xFF#9 [0x01#8]).runState = .running ∧ decode (codeAt 0xFF#9 [0x01#8]).fetchBytes = .ok .hlt [] ∧
    pcControlFlag ((codeAt 0xFF#9 [0x01#8]).mem.get 0xFF) = false ∧
    (nextOf (step (codeAt 0xFF#9 [0x01#8]))).map State.notFaulted = some true := by decide

/-- InstructionInMemoryIsExecuted. -/
theorem witness_instruction_in_memory :
    (codeAt 5#9 [0x82#8, 1#8, 9#8]).runState = .running ∧
    (∀ k (h : k < (encode (.ldi 1#8 9#8)).length),
      (codeAt 5#9 [0x82#8, 1#8, 9#8]).mem.read ((codeAt 5#9 [0x82#8, 1#8, 9#8]).pc.toNat + k) =
        some (encode (.ldi 1#8 9#8))[k]) := by decide

/-- OpcodeFetchReadsPcOrFaults, both clauses at their boundary. -/
theorem witness_fetch_boundary :
    (codeAt 256#9 []).runState = .running ∧ 256 ≤ (codeAt 256#9 []).pc.toNat ∧
    (codeAt 255#9 []).runState = .running ∧ (codeAt 255#9 []).pc.toNat < 256 := by decide

/-- DecodeSplitsTheOpcodeAndRejectsUnknown: a count-3 opcode, an undefined one of each flag, the last at 0xFF. -/
theorem witness_unknown_opcodes :
    operandCount ((codeAt 0xFF#9 [0xFF#8]).mem.get 0xFF) = 3 ∧
    (aluFlag ((codeAt 0xFF#9 [0x83#8]).mem.get 0xFF) = false ∧ ∀ o ∈ Operation.all, opcodes o ≠ 0x83#8) ∧
    (codeAt 0xFF#9 [0x83#8]).runState = .running ∧ (codeAt 0xFF#9 [0x83#8]).mem.get 0xFF = 0x83#8 ∧
    operandCount ((codeAt 0xFF#9 [0xA1#8]).mem.get 0xFF) ≠ 3 ∧ aluFlag ((codeAt 0xFF#9 [0xA1#8]).mem.get 0xFF) = true ∧
    (∀ o ∈ Operation.all, opcodes o ≠ 0xA1#8) := by decide

/-- OperandFetchPastTheTopFaults: LDI at 0xFE. -/
theorem witness_operand_past_top :
    (codeAt 0xFE#9 [0x82#8, 0#8]).runState = .running ∧
    classify ((codeAt 0xFE#9 [0x82#8, 0#8]).mem.get 0xFE) ≠ .countThree ∧
    classify ((codeAt 0xFE#9 [0x82#8, 0#8]).mem.get 0xFE) ≠ .undefinedOther ∧
    256 ≤ (codeAt 0xFE#9 [0x82#8, 0#8]).pc.toNat + operandCount ((codeAt 0xFE#9 [0x82#8, 0#8]).mem.get 0xFE) := by decide

/-- UndefinedAluOpcodeFaultsAfterTheFetch: the last place its operands fit. -/
theorem witness_undefined_alu :
    (codeAt 0xFD#9 [0xA1#8]).runState = .running ∧
    (codeAt 0xFD#9 [0xA1#8]).pc.toNat + operandCount ((codeAt 0xFD#9 [0xA1#8]).mem.get 0xFD) < 256 ∧
    classify ((codeAt 0xFD#9 [0xA1#8]).mem.get 0xFD) = .undefinedAlu := by decide

/-- StepIsThePseudocode, StepExistsExactlyWhenRunning and HaltedIsEnteredByHltAndTerminal: a running and a stopped
machine. -/
theorem witness_running_and_stopped :
    State.reset.runState = .running ∧ State.reset.halt.runState = .halted ∧
    (construct Config.regInit .wrap).core.halt.runState ≠ .running := by decide

/-- FaultsArePrecise: reset runs into a zero byte. -/
theorem witness_fault_step : stateAfter State.reset = fault .unknownInstruction 0#9 0 := by decide

/-- UnfaultedEndMeansSafeRun: one step to HALTED, and any number after it. -/
theorem witness_unfaulted_end : (runSteps 3 (codeAt 0#9 [0x01#8])).notFaulted = true := by decide

/-- StepKeepsTheInvariant, OutputStartsEmptyAndOnlyGrows, LaunchParameterIsConstant, OutputIsNeverRead and
PcReachesTheTopOnlyByAdvance: a state with the invariant whose step is a next state, at `pc` 256 after it. -/
theorem witness_invariant_state : (codeAt 0xFE#9 [0x47#8, 7#8]).Inv ∧
    (nextOf (step (codeAt 0xFE#9 [0x47#8, 7#8]))).map (fun t => (t.pc, t.out)) = some (256#9, [0xF4#8]) ∧
    (codeAt 0xFE#9 [0x47#8, 7#8]).pc.toNat ≤ 256 :=
  ⟨⟨by decide, by decide, fun _ h => nomatch h⟩, by decide, by decide⟩

/-- ResetMeetsTheInvariant and OnlyPushCallAndLoaderWriteMemory: an image that loads. -/
theorem witness_loaded : ∃ c, load [0x47#8, 7#8] (construct Config.regInit .fault) = .next c := ⟨_, rfl⟩

/-- OnlyPushCallAndLoaderWriteMemory: a step that changes memory. -/
theorem witness_memory_step : ∃ t, step (codeAt 0#9 [0x45#8, 7#8]) = .next t ∧ t.mem.get 0xF3 = 0xF3#8 := ⟨_, rfl, by decide⟩

/-- CanonicalMemoryIsDeterminedByItsBytes. -/
theorem witness_canonical :
    Memory.wf [(0, 1#8), (255, 2#8)] = true ∧
    (∀ a, a < 256 → Memory.get [(0, 1#8), (255, 2#8)] a = Memory.get (Memory.set [(0, 1#8)] 255 2#8) a) :=
  ⟨by decide, fun _ _ => rfl⟩

/-- PcAdvancesUnlessTheHandlerSetsIt (flag set) and OnlyCallAndRetTransferControl: a RET that goes back. -/
theorem witness_control_transfer :
    (codeAt 9#9 [0x11#8]).fetched = .ok .ret [0#8, 0#8] ∧ pcControlFlag ((codeAt 9#9 [0x11#8]).mem.get 9) = true ∧
    (nextOf (step (codeAt 9#9 [0x11#8]))).map (fun t => (t.notFaulted, t.pc.toNat != 9 + (encode .ret).length)) =
      some (true, true) := by decide

/-- LdiLoadsTheImmediate, PrnEmitsTheRegister, AddWritesTheSumModulo256, MulWritesTheProductModulo256 and
InvalidRegisterIsRejected: operand bytes at the boundary. -/
theorem witness_register_bytes : (7#8).toNat < 8 ∧ 8 ≤ (8#8).toNat := by decide

/-- PushStoresBelowTheStackPointer, CallPushesTheReturnAddressAndJumps, PushThenPopRestoresTheRegisters,
PopLoadsFromTheStackPointer and RetPopsIntoPc: the fault policy at the last SP that does not wrap, `pc` at the last one a
CALL may have. -/
theorem witness_no_wrap :
    (({ (codeAt 253#9 []).setSp 1#8 with spWrapPolicy := .fault } : State).spWrapPolicy = .fault →
      ({ (codeAt 253#9 []).setSp 1#8 with spWrapPolicy := .fault } : State).sp ≠ 0x00#8) ∧
    (codeAt 253#9 []).pc.toNat + 2 < 256 ∧
    (({ (codeAt 253#9 []).setSp 0xFE#8 with spWrapPolicy := .fault } : State).spWrapPolicy = .fault →
      (if (7#8 : Byte) = 7#8 then ({ (codeAt 253#9 []).setSp 0xFE#8 with spWrapPolicy := .fault } : State).mem.get 0xFE
        else ({ (codeAt 253#9 []).setSp 0xFE#8 with spWrapPolicy := .fault } : State).sp) ≠ 0xFF#8) ∧
    ({ (codeAt 253#9 []).setSp 0xFE#8 with spWrapPolicy := .fault } : State).sp ≠ 0xFF#8 := by decide

/-- HltStepEndsTheRun, both clauses. -/
theorem witness_hlt_at_the_top :
    (codeAt 0xFF#9 [0x01#8]).runState = .running ∧ (codeAt 0xFF#9 [0x01#8]).pc.toNat < 256 ∧
    (codeAt 0xFF#9 [0x01#8]).mem.get (codeAt 0xFF#9 [0x01#8]).pc.toNat = 0x01#8 ∧ (codeAt 256#9 []).pc.toNat = 256 := by decide

/-- CallAtTheTopFaults. -/
theorem witness_call_at_the_top : (1#8).toNat < 8 ∧ 256 ≤ (codeAt 254#9 []).pc.toNat + 2 := by decide

/-- StackWrapFaultsUnderTheFaultPolicy: SP at 0x00, SP at 0xFF, and a loaded 0xFF. -/
theorem witness_stack_wrap :
    ({ State.reset.setSp 0x00#8 with spWrapPolicy := .fault } : State).sp = 0x00#8 ∧
    ({ State.reset.setSp 0xFF#8 with spWrapPolicy := .fault } : State).sp = 0xFF#8 ∧
    (6#8).toNat < 7 ∧ State.reset.pc.toNat + 2 < 256 ∧
    ({ State.reset.storeByte 0xF4#8 0xFF#8 with spWrapPolicy := .fault } : State).mem.get State.reset.sp.toNat = 0xFF#8 ∧
    ({ State.reset.storeByte 0xF4#8 0xFF#8 with spWrapPolicy := .fault } : State).spWrapPolicy = .fault := by decide

/-- FaultPolicyRefinesWrapPolicy: a step under the fault policy that wraps, and one that does not. -/
theorem witness_fault_policy_steps :
    stateAfter { (codeAt 0#9 [0x45#8, 0#8]).setSp 0#8 with spWrapPolicy := .fault } = fault .stackWrap 0#9 0 ∧
    stateAfter { codeAt 0#9 [0x45#8, 0#8] with spWrapPolicy := .fault } = some .running := by decide

/-- NoStackBoundsAreChecked. -/
theorem witness_wrap_policy : State.reset.spWrapPolicy = .wrap ∧ (0#8).toNat < 8 ∧ 0#8 ≠ 7#8 ∧ State.reset.pc.toNat + 2 < 256 := by decide

/-- BalancedRunRestoresTheStackPointer: PUSH R0, LDI R1,5 and POP R1, in that order. -/
theorem witness_balanced_run :
    Balanced [.push 0#8, .ldi 1#8 5#8, .pop 1#8] ∧
    ∃ t, RunsThrough [.push 0#8, .ldi 1#8 5#8, .pop 1#8]
      (codeAt 0#9 [0x45#8, 0#8, 0x82#8, 1#8, 5#8, 0x46#8, 1#8]) t :=
  ⟨Balanced.pair (body := [.ldi 1#8 5#8]) rfl rfl rfl (Balanced.other rfl rfl rfl),
    _, _, _, rfl, rfl, rfl, _, _, rfl, rfl, rfl, _, _, rfl, rfl, rfl, rfl⟩

/-- BalancedRunRestoresTheStackPointer: PUSH R7 and POP R7. -/
theorem witness_balanced_r7 :
    ∃ t, RunsThrough [.push 7#8, .pop 7#8] (codeAt 0#9 [0x45#8, 7#8, 0x46#8, 7#8]) t :=
  ⟨_, _, _, rfl, rfl, rfl, _, _, rfl, rfl, rfl, rfl⟩

/-- CallThenRetReturns: CALL R1 to a RET at address 2. -/
theorem witness_call_then_ret :
    ∃ t, RunsThrough [.call 1#8, .ret] ((codeAt 0#9 [0x50#8, 1#8, 0x11#8]).writeReg 1 2#8) t :=
  ⟨_, _, _, rfl, rfl, rfl, _, _, rfl, rfl, rfl, rfl⟩

/-- StoredByteIsFetchedNext, both clauses: a PUSH just below SP - 1, and a CALL R7. -/
theorem witness_stored_byte :
    (nextOf (exec (.push 0#8) ((codeAt 6#9 []).setSp 9#8))).map (fun t => (t.runState, t.pc.toNat)) =
      some (.running, ((codeAt 6#9 []).setSp 9#8).pushAddress.toNat) ∧
    (nextOf (exec (.call 7#8) (codeAt 0x10#9 []))).map (fun t => (t.runState, t.pc.toNat)) =
      some (.running, (codeAt 0x10#9 []).pushAddress.toNat) := by decide

/-- ResetAndLoadGiveTheStartState and LoaderRefusesLongAndLateImages: images of 256 and of 257 bytes. -/
theorem witness_image_lengths :
    (List.replicate 256 0#8).length ≤ 256 ∧ 256 < (List.replicate 257 0#8).length ∧
    (construct Config.regInit .wrap).phase = .fresh := by
  rw [List.length_replicate, List.length_replicate]; decide

/-- RunningIntoZeroFaults. -/
theorem witness_zero_byte :
    (codeAt 0xFF#9 []).runState = .running ∧ (codeAt 0xFF#9 []).pc.toNat < 256 ∧
    (codeAt 0xFF#9 []).mem.get (codeAt 0xFF#9 []).pc.toNat = 0x00#8 := by decide

/-- TraceShowsTheStateBeforeTheStep: a PRN at 0xFE is stepped, with a byte at 0xFF and none at 256; a `pc` of 256. -/
theorem witness_trace_step :
    (∃ t, step (codeAt 0xFE#9 [0x47#8, 7#8]) = .next t ∧ t.traceRecord.pc = 256#9) ∧
    (codeAt 0xFE#9 [0x47#8, 7#8]).traceRecord.bytes = #v[some 0x47#8, some 7#8, none] ∧
    State.reset.halt.runState ≠ .running := ⟨⟨_, rfl, by decide⟩, by decide⟩

/-- AssemblerSpellingReadsBack. -/
theorem witness_well_formed : (Instr.add 7#8 0#8).wellFormed = true := by decide

end Sys2Proof.Tests
end

/-! ## What a step can do

One relation that says everything `exec` can answer, guards included; each invariant of the step is a case analysis
of it. -/

namespace Sys2Proof.Machine

/-- All that executing `i` from `s` can end in: one constructor per completion and one per fault of R110 that an
instruction can raise, each with the checks that lead to it. -/
inductive Executes (s : State) : Instr → State → Prop where
  | invalidRegister {i : Instr} {r : Byte} (operand : r ∈ i.regOperands) (invalid : 8 ≤ r.toNat) :
      Executes s i (s.raise .invalidRegister r.toNat)
  | callOutOfRange {r : Byte} (valid : r.toNat < 8) (top : Config.memSize ≤ s.returnAddress) :
      Executes s (.call r) (s.raise .addressOutOfRange s.returnAddress)
  | pushWraps {r : Byte} (valid : r.toNat < 8) (policy : s.spWrapPolicy = .fault) (wraps : s.decWraps = true) :
      Executes s (.push r) (s.raise .stackWrap s.sp.toNat)
  | popWraps {r : Byte} (valid : r.toNat < 8) (policy : s.spWrapPolicy = .fault)
      (wraps : (s.writeReg ⟨r.toNat, valid⟩ (s.loadByte s.sp)).incWraps = true) :
      Executes s (.pop r) (s.raise .stackWrap s.sp.toNat)
  | callWraps {r : Byte} (valid : r.toNat < 8) (below : s.returnAddress < Config.memSize)
      (policy : s.spWrapPolicy = .fault) (wraps : s.decWraps = true) :
      Executes s (.call r) (s.raise .stackWrap s.sp.toNat)
  | retWraps (policy : s.spWrapPolicy = .fault) (wraps : s.incWraps = true) :
      Executes s .ret (s.raise .stackWrap s.sp.toNat)
  | hlt : Executes s .hlt (s.advancePc .hlt).halt
  | prn {r : Byte} (valid : r.toNat < 8) :
      Executes s (.prn r) ((s.emit (s.readReg ⟨r.toNat, valid⟩)).advancePc .prn)
  | ldi {r imm : Byte} (valid : r.toNat < 8) :
      Executes s (.ldi r imm) ((s.writeReg ⟨r.toNat, valid⟩ imm).advancePc .ldi)
  | add {r1 r2 : Byte} (valid1 : r1.toNat < 8) (valid2 : r2.toNat < 8) :
      Executes s (.add r1 r2)
        ((s.writeReg ⟨r1.toNat, valid1⟩ (s.readReg ⟨r1.toNat, valid1⟩ + s.readReg ⟨r2.toNat, valid2⟩)).advancePc .add)
  | mul {r1 r2 : Byte} (valid1 : r1.toNat < 8) (valid2 : r2.toNat < 8) :
      Executes s (.mul r1 r2)
        ((s.writeReg ⟨r1.toNat, valid1⟩ (s.readReg ⟨r1.toNat, valid1⟩ * s.readReg ⟨r2.toNat, valid2⟩)).advancePc .mul)
  | push {r : Byte} (valid : r.toNat < 8) (noWrap : s.spWrapPolicy = .fault → s.decWraps = false) :
      Executes s (.push r) ((s.decSp.storeByte s.decSp.sp (s.decSp.readReg ⟨r.toNat, valid⟩)).advancePc .push)
  | pop {r : Byte} (valid : r.toNat < 8)
      (noWrap : s.spWrapPolicy = .fault → (s.writeReg ⟨r.toNat, valid⟩ (s.loadByte s.sp)).incWraps = false) :
      Executes s (.pop r) ((s.writeReg ⟨r.toNat, valid⟩ (s.loadByte s.sp)).incSp.advancePc .pop)
  | call {r : Byte} (valid : r.toNat < 8) (below : s.returnAddress < Config.memSize)
      (noWrap : s.spWrapPolicy = .fault → s.decWraps = false) :
      Executes s (.call r)
        (((s.decSp.storeByte s.decSp.sp (BitVec.ofNat 8 s.returnAddress)).setPc
          ((s.decSp.readReg ⟨r.toNat, valid⟩).setWidth 9)).advancePc .call)
  | ret (noWrap : s.spWrapPolicy = .fault → s.incWraps = false) :
      Executes s .ret ((s.setPc ((s.loadByte s.sp).setWidth 9)).incSp.advancePc .ret)

/-- A register operand either raises InvalidRegister or leaves the rest of the handler to look at. -/
theorem Executes.of_withRegister {i : Instr} {r : Byte} {s t : State} {k : Fin 8 → Answer} (operand : r ∈ i.regOperands)
    (h : withRegister r s k = .next t) (rest : ∀ hr : r.toNat < 8, k ⟨r.toNat, hr⟩ = .next t → Executes s i t) :
    Executes s i t := by
  obtain ⟨hr, hk⟩ | ⟨hr, rfl⟩ := withRegister_next h
  · exact rest hr hk
  · exact .invalidRegister operand hr

theorem execPush_next {r : Byte} {s t : State} (h : execPush r s = .next t) : Executes s (.push r) t := by
  refine .of_withRegister (List.mem_singleton_self r) h fun hr h => ?_
  obtain ⟨hw, hk⟩ | ⟨hp, hw, rfl⟩ := guardWrap_next h
  · cases hk; exact .push hr hw
  · exact .pushWraps hr hp hw

theorem execPop_next {r : Byte} {s t : State} (h : execPop r s = .next t) : Executes s (.pop r) t := by
  refine .of_withRegister (List.mem_singleton_self r) h fun hr h => ?_
  obtain ⟨hw, hk⟩ | ⟨hp, hw, rfl⟩ := guardWrap_next h
  · cases hk; exact .pop hr hw
  · exact .popWraps hr hp hw

theorem execCall_next {r : Byte} {s t : State} (h : execCall r s = .next t) : Executes s (.call r) t := by
  refine .of_withRegister (List.mem_singleton_self r) h fun hr h => ?_
  by_cases htop : s.returnAddress ≥ Config.memSize
  · rw [if_pos htop] at h; cases h; exact .callOutOfRange hr htop
  · rw [if_neg htop] at h
    obtain ⟨hw, hk⟩ | ⟨hp, hw, rfl⟩ := guardWrap_next h
    · cases hk; exact .call hr (Nat.not_le.mp htop) hw
    · exact .callWraps hr (Nat.not_le.mp htop) hp hw

theorem execRet_next {s t : State} (h : execRet s = .next t) : Executes s .ret t := by
  obtain ⟨hw, hk⟩ | ⟨hp, hw, rfl⟩ := guardWrap_next h
  · cases hk; exact .ret hw
  · exact .retWraps hp hw

theorem execHlt_next {s t : State} (h : execHlt s = .next t) : Executes s .hlt t := by
  cases h; exact .hlt

theorem execPrn_next {r : Byte} {s t : State} (h : execPrn r s = .next t) : Executes s (.prn r) t := by
  refine .of_withRegister (List.mem_singleton_self r) h fun hr h => ?_
  cases h; exact .prn hr

theorem execLdi_next {r imm : Byte} {s t : State} (h : execLdi r imm s = .next t) : Executes s (.ldi r imm) t := by
  refine .of_withRegister (List.mem_singleton_self r) h fun hr h => ?_
  cases h; exact .ldi hr

/-- Both register operands of the ALU form are checked, A before B, before the ALU is used. -/
theorem Executes.of_execAlu {i : Instr} {o : Operation} {r1 r2 : Byte} {s t : State}
    (operands : i.regOperands = [r1, r2]) (h : execAlu o r1 r2 s = .next t)
    (rest : r1.toNat < 8 → r2.toNat < 8 → Executes s i t) : Executes s i t := by
  unfold execAlu at h
  refine .of_withRegister (by simp [operands]) h fun h1 h => ?_
  exact .of_withRegister (by simp [operands]) h fun h2 _ => rest h1 h2

theorem execAdd_next {r1 r2 : Byte} {s t : State} (h : execAdd r1 r2 s = .next t) : Executes s (.add r1 r2) t := by
  refine .of_execAlu rfl h fun h1 h2 => ?_
  rw [execAdd_valid h1 h2] at h; cases h; exact .add h1 h2

theorem execMul_next {r1 r2 : Byte} {s t : State} (h : execMul r1 r2 s = .next t) : Executes s (.mul r1 r2) t := by
  refine .of_execAlu rfl h fun h1 h2 => ?_
  rw [execMul_valid h1 h2] at h; cases h; exact .mul h1 h2

/-- The inversion of `exec`: every answer is one of the cases of `Executes`. -/
theorem exec_next {i : Instr} {s t : State} (h : exec i s = .next t) : Executes s i t := by
  cases i with
  | hlt => exact execHlt_next h
  | ret => exact execRet_next h
  | push r => exact execPush_next h
  | pop r => exact execPop_next h
  | prn r => exact execPrn_next h
  | call r => exact execCall_next h
  | ldi r imm => exact execLdi_next h
  | add r1 r2 => exact execAdd_next h
  | mul r1 r2 => exact execMul_next h

/-- The inversion of `step`: the fetched instruction is executed, or the decode's fault is taken. -/
theorem step_next_executes {s t : State} (h : step s = .next t) :
    (∃ i rest, s.fetched = .ok i rest ∧ Executes s i t) ∨ (∃ e, s.fetched = .error e ∧ t = s.raiseDecode e) := by
  obtain ⟨-, hc⟩ := step_next h
  obtain ⟨i, rest, hf, he⟩ | hfault := cycle_next hc
  · exact .inl ⟨i, rest, hf, exec_next he⟩
  · exact .inr hfault

end Sys2Proof.Machine

/-! ## The output stream (R34) -/

namespace Sys2Proof.Machine

@[simp] theorem State.raiseDecode_out (s : State) (e : DecodeError) : (s.raiseDecode e).out = s.out := by
  cases e <;> rfl

/-- Only a PRN that completes changes `out`, and it appends the register's value. -/
theorem Executes.out_eq {i : Instr} {s t : State} (h : Executes s i t) :
    t.out = s.out ∨ ∃ (r : Byte) (hr : r.toNat < 8), i = .prn r ∧ t.out = s.out ++ [s.readReg ⟨r.toNat, hr⟩] := by
  cases h with
  | @prn r hr => exact .inr ⟨r, hr, rfl, by simp⟩
  | _ => exact .inl (by simp)

/-- Settles O21: a decode fault keeps `out`, and of all an instruction can do only a completed PRN appends to it. -/
theorem outputStartsEmptyAndOnlyGrows : Obligations.OutputStartsEmptyAndOnlyGrows := by
  refine ⟨fun _ _ => rfl, fun s t h => ?_⟩
  obtain ⟨i, rest, hf, he⟩ | ⟨e, -, rfl⟩ := step_next_executes h
  · obtain hout | ⟨r, hr, rfl, hout⟩ := he.out_eq
    · exact .inl hout
    · exact .inr ⟨r, ⟨r.toNat, hr⟩, rest, hf, rfl, hout⟩
  · exact .inl (s.raiseDecode_out e)

end Sys2Proof.Machine

/-! ## Who writes memory (R62) -/

namespace Sys2Proof.Machine

@[simp] theorem State.raiseDecode_mem (s : State) (e : DecodeError) : (s.raiseDecode e).mem = s.mem := by
  cases e <;> rfl

/-- Only a PUSH or a CALL that completes writes memory, and it writes one byte, at SP - 1. -/
theorem Executes.mem_eq {i : Instr} {s t : State} (h : Executes s i t) :
    t.mem = s.mem ∨ (i.pushes = true ∧ ∃ v, t.mem = s.mem.set (s.sp - 1#8).toNat v) := by
  cases h with
  | push hr =>
    exact .inr ⟨rfl, _, by rw [State.advancePc_mem, State.storeByte_mem, State.decSp_mem, State.sp_decSp]⟩
  | call hr =>
    exact .inr ⟨rfl, _, by
      rw [State.advancePc_mem, State.setPc_mem, State.storeByte_mem, State.decSp_mem, State.sp_decSp]⟩
  | _ => exact .inl (by simp)

/-- A memory written at one address differs from what it was at that address alone. -/
theorem SameMemoryExcept.of_mem_eq_set {s t : State} {a : Nat} {v : Byte} (h : t.mem = s.mem.set a v) :
    SameMemoryExcept a s t := by
  intro a' ha
  rw [h, Memory.get_set_other _ _ ha]

/-- All a load that is not refused can do (R249): `run` has not been invoked, the image fits, and it is copied. -/
theorem load_next {image : List Byte} {c c' : CoreInstance} (h : load image c = .next c') :
    c.phase = .fresh ∧ image.length ≤ Config.maxImage ∧ c' = { c with core := c.core.withImage image } := by
  unfold load at h
  split at h
  · cases h
  · next hphase =>
    split at h
    · next hlen => cases h; exact ⟨hphase, hlen, rfl⟩
    · cases h

/-- Settles O22: a decode fault keeps memory, of all an instruction can do only a completed PUSH or CALL writes it, at
SP - 1, and a started machine refuses every load. -/
theorem onlyPushCallAndLoaderWriteMemory : Obligations.OnlyPushCallAndLoaderWriteMemory := by
  refine ⟨fun s t h => ?_, fun image c c' h => (load_next h).1⟩
  obtain ⟨i, rest, hf, he⟩ | ⟨e, -, rfl⟩ := step_next_executes h
  · obtain hmem | ⟨hpush, v, hmem⟩ := he.mem_eq
    · exact .inl hmem
    · exact .inr ⟨i, rest, hf, hpush, .of_mem_eq_set hmem⟩
  · exact .inl (s.raiseDecode_mem e)

end Sys2Proof.Machine

/-! ## What the decoder can answer (R72) -/

namespace Sys2Proof

/-- The operand count as a number: the opcode's value over the six bits below it. -/
theorem operandCount_eq_div (op : Byte) : operandCount op = op.toNat / 64 := by
  have hbyte : op.toNat < 256 := op.isLt
  rw [operandCount, BitVec.extractLsb'_toNat, Nat.shiftRight_eq_div_pow]
  omega

/-- The operand count is a two-bit field. -/
theorem operandCount_le_three (op : Byte) : operandCount op ≤ 3 := Nat.le_of_lt_succ (op.extractLsb' 6 2).isLt

theorem classifyWith_of_operandCount_three (m : OpcodeMap) {op : Byte} (h : operandCount op = 3) :
    classifyWith m op = .countThree := if_pos h

theorem operandCount_ne_three_of_defined {m : OpcodeMap} {op : Byte} {o : Operation}
    (h : classifyWith m op = .defined o) : operandCount op ≠ 3 := fun h3 => by
  rw [classifyWith_of_operandCount_three m h3] at h
  cases h

/-- Operands lead to an instruction only when all of them are there. -/
theorem withOperands_eq_ok {n : Nat} {rest rest' : List Byte} {i : Instr} {k : List Byte → List Byte → DecodeResult}
    (h : withOperands n rest k = .ok i rest') : n ≤ rest.length ∧ k (rest.take n) (rest.drop n) = .ok i rest' := by
  unfold withOperands at h
  split at h
  · next hn => exact ⟨hn, h⟩
  · cases h

theorem decodeWith_of_operandCount_three (m : OpcodeMap) {op : Byte} (rest : List Byte) (h : operandCount op = 3) :
    decodeWith m (op :: rest) = .error (.unknownInstruction op) := by
  simp only [decodeWith, classifyWith_of_operandCount_three m h]

/-- The inversion of the decoder: an instruction is built from a defined opcode's operation and the operand bytes its
count names, and the bytes after them are left. -/
theorem decodeWith_cons_eq_ok {m : OpcodeMap} {op : Byte} {rest rest' : List Byte} {i : Instr}
    (h : decodeWith m (op :: rest) = .ok i rest') :
    ∃ o, classifyWith m op = .defined o ∧ operandCount op ≤ rest.length ∧
      o.build (rest.take (operandCount op)) = some i ∧ rest.drop (operandCount op) = rest' := by
  rw [decodeWith] at h
  split at h
  · cases h
  · cases h
  · cases (withOperands_eq_ok h).2
  · next o hclass =>
    obtain ⟨hlen, hbuild⟩ := withOperands_eq_ok h
    split at hbuild
    · next hi => cases hbuild; exact ⟨o, hclass, hlen, hi, rfl⟩
    · cases hbuild

/-- Settles O6: the count is a two-bit number, its value 3 is rejected before the opcode is looked up, and a decoded
instruction leaves what its count of operand bytes leaves. -/
theorem operandCountGivesTheLength : Obligations.OperandCountGivesTheLength := by
  refine fun op rest => ⟨operandCount_eq_div op, decodeWith_of_operandCount_three opcodes rest, fun i rest' h => ?_⟩
  obtain ⟨o, hclass, hlen, -, rfl⟩ := decodeWith_cons_eq_ok h
  constructor
  · exact Nat.le_of_lt_succ (lt_of_le_of_ne (operandCount_le_three op) (operandCount_ne_three_of_defined hclass))
  · rw [List.length_cons, List.length_drop]
    omega

end Sys2Proof

/-! ## When a step exists (R101) -/

namespace Sys2Proof.Machine

theorem execPush_answers (r : Byte) (s : State) : ∃ t, execPush r s = .next t :=
  withRegister_answers fun _ => guardWrap_answers ⟨_, rfl⟩

theorem execPop_answers (r : Byte) (s : State) : ∃ t, execPop r s = .next t :=
  withRegister_answers fun _ => guardWrap_answers ⟨_, rfl⟩

/-- Whether or not the return address is in range, CALL answers a next state. -/
theorem execCall_answers (r : Byte) (s : State) : ∃ t, execCall r s = .next t := by
  refine withRegister_answers fun d => ?_
  split
  · exact ⟨_, rfl⟩
  · exact guardWrap_answers ⟨_, rfl⟩

theorem execRet_answers (s : State) : ∃ t, execRet s = .next t := guardWrap_answers ⟨_, rfl⟩

theorem execPrn_answers (r : Byte) (s : State) : ∃ t, execPrn r s = .next t := withRegister_answers fun _ => ⟨_, rfl⟩

theorem execLdi_answers (r imm : Byte) (s : State) : ∃ t, execLdi r imm s = .next t :=
  withRegister_answers fun _ => ⟨_, rfl⟩

/-- The ALU form answers a next state under every tag: a value is written back, and a tag the ALU rejects is a fault. -/
theorem execAlu_answers (o : Operation) (r1 r2 : Byte) (s : State) : ∃ t, execAlu o r1 r2 s = .next t := by
  refine withRegister_answers fun d => withRegister_answers fun e => ?_
  cases alu (aluTag (opcodes o)) (s.readReg d) (s.readReg e) with
  | value v => exact ⟨_, rfl⟩
  | unsupported op => exact ⟨_, rfl⟩

/-- Every instruction answers a next state: its faults are next states too, in FAULTED. -/
theorem exec_answers (i : Instr) (s : State) : ∃ t, exec i s = .next t := by
  cases i with
  | hlt => exact ⟨_, rfl⟩
  | ret => exact execRet_answers s
  | push r => exact execPush_answers r s
  | pop r => exact execPop_answers r s
  | prn r => exact execPrn_answers r s
  | call r => exact execCall_answers r s
  | ldi r imm => exact execLdi_answers r imm s
  | add r1 r2 => exact execAlu_answers .add r1 r2 s
  | mul r1 r2 => exact execAlu_answers .mul r1 r2 s

theorem cycle_answers (s : State) : ∃ t, cycle s = .next t := by
  unfold cycle
  split
  · exact exec_answers _ s
  · exact ⟨_, rfl⟩

theorem step_exists_iff_running (s : State) : (∃ t, step s = .next t) ↔ s.runState = .running := by
  constructor
  · rintro ⟨t, h⟩
    exact (step_next h).1
  · intro h
    rw [step_running h]
    exact cycle_answers s

/-- Without a step there is nothing to run, whatever the fuel. -/
theorem runSteps_of_no_step {s : State} (h : ¬ ∃ t, step s = .next t) (fuel : Nat) : runSteps fuel s = s := by
  cases fuel with
  | zero => rfl
  | succ fuel =>
    rw [runSteps]
    split
    · next t hstep => exact absurd ⟨t, hstep⟩ h
    · rfl
    · rfl

/-- Settles O15: every cycle of a running machine answers a next state, a stopped machine has no step, and so `run` on
it stays where it is. -/
theorem stepExistsExactlyWhenRunning : Obligations.StepExistsExactlyWhenRunning :=
  ⟨step_exists_iff_running, fun fuel s h => runSteps_of_no_step (mt (step_exists_iff_running s).1 h) fuel⟩

end Sys2Proof.Machine

/-! ## The stack instructions when no fault stops them (R171, R172, R190, R191) -/

namespace Sys2Proof.Machine

/-- Under the hardware's policy the StackWrap guard has nothing to check. -/
theorem noWrap_of_wrapPolicy {s : State} (h : s.spWrapPolicy = .wrap) (w : Bool) :
    s.spWrapPolicy = .fault → w = false := fun hfault => by rw [h] at hfault; cases hfault

/-- Writing a register other than R7 leaves SP alone. -/
theorem State.sp_writeReg_other (s : State) (v : Byte) {i : Fin 8} (h : i ≠ 7) : (s.writeReg i v).sp = s.sp :=
  s.readReg_writeReg_other v h.symm

theorem execPush_of_noWrap {r : Byte} {s : State} (hr : r.toNat < 8)
    (hw : s.spWrapPolicy = .fault → s.decWraps = false) :
    execPush r s = .next ((s.decSp.storeByte s.decSp.sp (s.decSp.readReg ⟨r.toNat, hr⟩)).advancePc .push) :=
  (withRegister_valid hr).trans (guardWrap_pass hw)

theorem execPop_of_noWrap {r : Byte} {s : State} (hr : r.toNat < 8)
    (hw : s.spWrapPolicy = .fault → (s.writeReg ⟨r.toNat, hr⟩ (s.loadByte s.sp)).incWraps = false) :
    execPop r s = .next ((s.writeReg ⟨r.toNat, hr⟩ (s.loadByte s.sp)).incSp.advancePc .pop) :=
  (withRegister_valid hr).trans (guardWrap_pass hw)

theorem execCall_of_noWrap {r : Byte} {s : State} (hr : r.toNat < 8) (below : s.returnAddress < Config.memSize)
    (hw : s.spWrapPolicy = .fault → s.decWraps = false) :
    execCall r s =
      .next (((s.decSp.storeByte s.decSp.sp (BitVec.ofNat 8 s.returnAddress)).setPc
        ((s.decSp.readReg ⟨r.toNat, hr⟩).setWidth 9)).advancePc .call) :=
  ((withRegister_valid hr).trans (if_neg (Nat.not_le.mpr below))).trans (guardWrap_pass hw)

theorem execRet_of_noWrap {s : State} (hw : s.spWrapPolicy = .fault → s.incWraps = false) :
    execRet s = .next ((s.setPc ((s.loadByte s.sp).setWidth 9)).incSp.advancePc .ret) :=
  guardWrap_pass hw

end Sys2Proof.Machine

/-! ## No stack bounds (R176) -/

namespace Sys2Proof.Machine

/-- Settles O43: the guard of the SP update is the only check of a stack instruction that looks at SP, and the
hardware's policy takes it away; SP is then moved by one, from the byte just loaded in the case of POP R7. -/
theorem noStackBoundsAreChecked : Obligations.NoStackBoundsAreChecked := by
  intro s hpolicy
  have hw := noWrap_of_wrapPolicy hpolicy
  refine ⟨⟨_, execRet_of_noWrap (hw _), by simp, by simp⟩, fun r hr => ⟨?push, ?pop, fun hpc => ?call⟩⟩
  case push => exact ⟨_, execPush_of_noWrap hr (hw _), by simp, by simp⟩
  case pop =>
    refine ⟨_, execPop_of_noWrap hr (hw _), by simp, fun hne => ?_⟩
    have hreg : (⟨r.toNat, hr⟩ : Fin 8) ≠ 7 := fun h => hne (BitVec.eq_of_toNat_eq (Fin.val_eq_of_eq h :))
    rw [State.sp_advancePc, State.sp_incSp, State.sp_writeReg_other _ _ hreg]
  case call => exact ⟨_, execCall_of_noWrap hr hpc (hw _), by simp, by simp⟩

end Sys2Proof.Machine

/-! ## Entering and staying in HALTED (R224) -/

namespace Sys2Proof.Machine

theorem State.raise_not_halted (s : State) (k : FaultKind) (n : Nat) : (s.raise k n).runState ≠ .halted := by
  simp

/-- A decode fault ends in FAULTED, whatever its kind. -/
theorem State.raiseDecode_not_halted (s : State) (e : DecodeError) : (s.raiseDecode e).runState ≠ .halted := by
  cases e <;> exact s.raise_not_halted _ _

/-- On a running machine HLT ends in HALTED; any other instruction that completes leaves the machine running, and every
fault ends in FAULTED. -/
theorem Executes.halted_iff {i : Instr} {s t : State} (h : Executes s i t) (running : s.runState = .running) :
    t.runState = .halted ↔ i = .hlt := by
  cases h with
  | hlt => simp
  | invalidRegister operand =>
    refine iff_of_false (s.raise_not_halted _ _) ?_
    rintro rfl
    cases operand
  | _ => simp [running]

/-- Settles O16: a step executes the fetched instruction or takes the decode's fault, and of both only an executed HLT
ends in HALTED; a HALTED machine has no step, so `run` stays where it is. -/
theorem haltedIsEnteredByHltAndTerminal : Obligations.HaltedIsEnteredByHltAndTerminal := by
  refine ⟨fun s t h => ?enters, fun fuel c halted => ?stays⟩
  case enters =>
    obtain ⟨running, -⟩ := step_next h
    obtain ⟨i, rest, hf, he⟩ | ⟨e, hf, rfl⟩ := step_next_executes h
    · rw [he.halted_iff running, hf]
      simp
    · rw [hf]
      exact iff_of_false (s.raiseDecode_not_halted e) (by simp)
  case stays =>
    have noStep : ¬ ∃ t, step c.core = .next t := by simp [step_halted halted]
    exact runSteps_of_no_step noStep fuel

end Sys2Proof.Machine

/-! ## The opcode map read in both directions (R75, R79) -/

namespace Sys2Proof

/-- Settles O3: the bits are compared operation by operation, the opcodes pair by pair. -/
theorem opcodeBitsAgreeWithOperations : Obligations.OpcodeBitsAgreeWithOperations := by
  refine ⟨fun o => ?bits, fun o p => ?distinct⟩
  case bits => cases o <;> decide
  case distinct => cases o <;> cases p <;> decide

/-- What is looked up under an opcode has that opcode, under any map. -/
theorem OpcodeMap.lookup_eq_some {m : OpcodeMap} {op : Byte} {o : Operation} (h : m.lookup op = some o) :
    m o = op := by
  simpa using List.find?_some h

theorem OpcodeMap.lookup_eq_none_iff {m : OpcodeMap} {op : Byte} : m.lookup op = none ↔ ∀ o, m o ≠ op := by
  simp [OpcodeMap.lookup, Operation.mem_all]

/-- Under an agreeing map every operation is found under its own opcode. -/
theorem OpcodeMap.Agrees.lookup_self {m : OpcodeMap} (hm : m.Agrees) (o : Operation) : m.lookup (m o) = some o := by
  cases hfound : m.lookup (m o) with
  | none => exact absurd rfl (OpcodeMap.lookup_eq_none_iff.mp hfound o)
  | some p => rw [hm.2 p o (OpcodeMap.lookup_eq_some hfound)]

theorem Operation.operandCount_le_two (o : Operation) : o.operandCount ≤ 2 := by cases o <;> decide

/-! ### The four classes by their conditions (R80) -/

theorem classifyWith_eq_countThree_iff {m : OpcodeMap} {op : Byte} :
    classifyWith m op = .countThree ↔ operandCount op = 3 := by
  unfold classifyWith
  split
  · next h => simp [h]
  · next h => split <;> [skip; split] <;> simp [h]

theorem classifyWith_eq_undefinedAlu_iff {m : OpcodeMap} {op : Byte} :
    classifyWith m op = .undefinedAlu ↔ operandCount op ≠ 3 ∧ (∀ o, m o ≠ op) ∧ aluFlag op = true := by
  rw [← OpcodeMap.lookup_eq_none_iff]
  unfold classifyWith
  split
  · next h => simp [h]
  · next h => cases m.lookup op <;> simp [h]

theorem classifyWith_eq_undefinedOther_iff {m : OpcodeMap} {op : Byte} :
    classifyWith m op = .undefinedOther ↔ operandCount op ≠ 3 ∧ (∀ o, m o ≠ op) ∧ aluFlag op = false := by
  rw [← OpcodeMap.lookup_eq_none_iff]
  unfold classifyWith
  split
  · next h => simp [h]
  · next h => cases m.lookup op <;> simp [h]

/-- A defined opcode is its operation's, under any map. -/
theorem opcode_of_classifyWith_defined {m : OpcodeMap} {op : Byte} {o : Operation}
    (h : classifyWith m op = .defined o) : m o = op := by
  unfold classifyWith at h
  split at h
  · cases h
  · split at h
    · next hfound => cases h; exact OpcodeMap.lookup_eq_some hfound
    · split at h <;> cases h

/-- Under an agreeing map the defined opcodes are those of the operations. -/
theorem OpcodeMap.Agrees.classifyWith_self {m : OpcodeMap} (hm : m.Agrees) (o : Operation) :
    classifyWith m (m o) = .defined o := by
  have hcount : operandCount (m o) ≠ 3 := by
    have := o.operandCount_le_two
    rw [(hm.1 o).1]; omega
  simp only [classifyWith, if_neg hcount, hm.lookup_self]

/-- An undefined opcode with the ALU flag is any but those of ADD and MUL. -/
theorem undefined_iff_of_aluFlag {op : Byte} (h : aluFlag op = true) :
    (∀ o, opcodes o ≠ op) ↔ op ∉ [0xA0#8, 0xA2#8] := by
  constructor
  · intro hundef hmem
    simp only [List.mem_cons, List.not_mem_nil, or_false] at hmem
    obtain rfl | rfl := hmem
    · exact hundef .add rfl
    · exact hundef .mul rfl
  · rintro hmem o rfl
    cases o <;> revert h hmem <;> decide

/-- An undefined opcode without the ALU flag is any but those of the seven other operations. -/
theorem undefined_iff_of_not_aluFlag {op : Byte} (h : aluFlag op = false) :
    (∀ o, opcodes o ≠ op) ↔ op ∉ [0x01#8, 0x11#8, 0x45#8, 0x46#8, 0x47#8, 0x50#8, 0x82#8] := by
  constructor
  · intro hundef hmem
    simp only [List.mem_cons, List.not_mem_nil, or_false] at hmem
    obtain rfl | rfl | rfl | rfl | rfl | rfl | rfl := hmem
    · exact hundef .hlt rfl
    · exact hundef .ret rfl
    · exact hundef .push rfl
    · exact hundef .pop rfl
    · exact hundef .prn rfl
    · exact hundef .call rfl
    · exact hundef .ldi rfl
  · rintro hmem o rfl
    cases o <;> revert h hmem <;> decide

theorem count_undefinedAlu_opcodes :
    ((List.range 256).countP fun n => classify (BitVec.ofNat 8 n) == .undefinedAlu) = 94 := by decide +kernel

/-- Settles O4: each class is met exactly on its condition, and the sizes are counted over the 256 bytes. -/
theorem opcodeBytesFallInFourClasses : Obligations.OpcodeBytesFallInFourClasses := by
  refine ⟨fun op => ⟨classifyWith_eq_countThree_iff, ?alu, ?other, fun o => ?defined⟩, ?known, ?three,
    count_undefinedAlu_opcodes, ?others⟩
  case alu =>
    refine classifyWith_eq_undefinedAlu_iff.trans (and_congr_right fun _ => and_comm.trans ?_)
    exact and_congr_right undefined_iff_of_aluFlag
  case other =>
    refine classifyWith_eq_undefinedOther_iff.trans (and_congr_right fun _ => and_comm.trans ?_)
    exact and_congr_right undefined_iff_of_not_aluFlag
  case defined =>
    constructor
    · exact opcode_of_classifyWith_defined
    · rintro rfl; exact opcodeBitsAgreeWithOperations.classifyWith_self o
  case known => decide +kernel
  case three => decide +kernel
  case others => decide +kernel

/-! ### Encoding and decoding are inverse (R70, R71) -/

theorem encodeWith_append (m : OpcodeMap) (i : Instr) (rest : List Byte) :
    encodeWith m i ++ rest = m i.operation :: (i.operands ++ rest) := rfl

theorem OpcodeMap.Agrees.decodeWith_encodeWith {m : OpcodeMap} (hm : m.Agrees) (i : Instr) (rest : List Byte) :
    decodeWith m (encodeWith m i ++ rest) = .ok i rest := by
  have hlen : i.operands.length = operandCount (m i.operation) := i.operands_length.trans (hm.1 i.operation).1.symm
  simp only [encodeWith_append, decodeWith, hm.classifyWith_self, withOperands_enough hlen, i.build_operands]

theorem decode_encode (i : Instr) (rest : List Byte) : decode (encode i ++ rest) = .ok i rest :=
  opcodeBitsAgreeWithOperations.decodeWith_encodeWith i rest

/-- Settles O1: the opcode of an agreeing map is looked up to the operation it came from, its count takes exactly the
operands, and they build the instruction again. -/
theorem decodeOfEncodeIsTheInstruction : Obligations.DecodeOfEncodeIsTheInstruction :=
  ⟨fun _ hm => hm.decodeWith_encodeWith, decode_encode⟩

/-- Settles O2: a decoded instruction was built from a defined opcode's operation and the operand bytes after it. -/
theorem decodedBytesAreTheEncoding : Obligations.DecodedBytesAreTheEncoding := by
  intro m bytes i rest h
  cases bytes with
  | nil => cases h
  | cons op tail =>
    obtain ⟨o, hclass, -, hbuild, rfl⟩ := decodeWith_cons_eq_ok h
    obtain ⟨rfl, hops⟩ := Operation.build_eq_some hbuild
    rw [encodeWith_append, hops, opcode_of_classifyWith_defined hclass, List.take_append_drop]

/-- Settles O5: each word is the encoding of its instruction with nothing after it. -/
theorem sampleWordsDecode : Obligations.SampleWordsDecode :=
  ⟨decode_encode .hlt [], decode_encode .ret [], decode_encode (.push 3#8) [], decode_encode (.pop 4#8) [],
    decode_encode (.prn 0#8) [], decode_encode (.call 1#8) [], decode_encode (.ldi 0#8 8#8) [],
    decode_encode (.add 2#8 5#8) [], decode_encode (.mul 6#8 7#8) []⟩

end Sys2Proof

/-! ## What the decoder rejects (R80, R103, R104, R110) -/

namespace Sys2Proof

theorem decodeWith_countThree {m : OpcodeMap} {op : Byte} (rest : List Byte) (h : classifyWith m op = .countThree) :
    decodeWith m (op :: rest) = .error (.unknownInstruction op) := by
  simp only [decodeWith, h]

theorem decodeWith_undefinedOther {m : OpcodeMap} {op : Byte} (rest : List Byte)
    (h : classifyWith m op = .undefinedOther) : decodeWith m (op :: rest) = .error (.unknownInstruction op) := by
  simp only [decodeWith, h]

theorem decodeWith_undefinedAlu {m : OpcodeMap} {op : Byte} {rest : List Byte}
    (h : classifyWith m op = .undefinedAlu) (enough : operandCount op ≤ rest.length) :
    decodeWith m (op :: rest) = .error (.unsupportedAluOperation op) := by
  simp only [decodeWith, h, withOperands, if_pos enough]

/-- An opcode that goes on to the operand fetch, defined or not, names the first operand byte that is missing. -/
theorem decodeWith_missingOperand {m : OpcodeMap} {op : Byte} {rest : List Byte}
    (h3 : classifyWith m op ≠ .countThree) (hother : classifyWith m op ≠ .undefinedOther)
    (missing : rest.length < operandCount op) :
    decodeWith m (op :: rest) = .error (.missingByte (rest.length + 1)) := by
  cases hclass : classifyWith m op with
  | countThree => exact absurd hclass h3
  | undefinedOther => exact absurd hclass hother
  | undefinedAlu => simp only [decodeWith, hclass, withOperands_missing missing]
  | defined o => simp only [decodeWith, hclass, withOperands_missing missing]

/-- Operand bytes of the operation's number build an instruction. -/
theorem Operation.build_of_length {o : Operation} {ops : List Byte} (h : ops.length = o.operandCount) :
    ∃ i, o.build ops = some i := by
  cases o <;> simp only [Operation.operandCount, List.length_eq_zero_iff, List.length_eq_one_iff,
    List.length_eq_two] at h
  case hlt | ret => subst h; exact ⟨_, rfl⟩
  case push | pop | prn | call => obtain ⟨r, rfl⟩ := h; exact ⟨_, rfl⟩
  case ldi | add | mul => obtain ⟨r1, r2, rfl⟩ := h; exact ⟨_, rfl⟩

/-- Under an agreeing map a defined opcode with its operand bytes decodes. -/
theorem OpcodeMap.Agrees.decodeWith_defined {m : OpcodeMap} (hm : m.Agrees) {op : Byte} {rest : List Byte}
    {o : Operation} (h : classifyWith m op = .defined o) (enough : operandCount op ≤ rest.length) :
    ∃ i rest', decodeWith m (op :: rest) = .ok i rest' := by
  have hcount : operandCount op = o.operandCount := by rw [← opcode_of_classifyWith_defined h, (hm.1 o).1]
  obtain ⟨i, hi⟩ := o.build_of_length (by rw [List.length_take_of_le enough, hcount])
  exact ⟨i, rest.drop (operandCount op), by simp only [decodeWith, h, withOperands, if_pos enough, hi]⟩

theorem operandCount_le_two_of_ne_countThree {m : OpcodeMap} {op : Byte} (h : classifyWith m op ≠ .countThree) :
    operandCount op ≤ 2 :=
  Nat.le_of_lt_succ (lt_of_le_of_ne (operandCount_le_three op) (mt classifyWith_eq_countThree_iff.mpr h))

/-- All a rejection can be under an agreeing map: an operand byte is missing, or the opcode is of one of the three
undefined classes. -/
theorem OpcodeMap.Agrees.decodeWith_eq_error {m : OpcodeMap} (hm : m.Agrees) {op : Byte} {rest : List Byte}
    {e : DecodeError} (h : decodeWith m (op :: rest) = .error e) :
    (e = .missingByte (rest.length + 1) ∧ rest.length < operandCount op ∧
      classifyWith m op ≠ .countThree ∧ classifyWith m op ≠ .undefinedOther) ∨
    (e = .unknownInstruction op ∧ (classifyWith m op = .countThree ∨ classifyWith m op = .undefinedOther)) ∨
    (e = .unsupportedAluOperation op ∧ classifyWith m op = .undefinedAlu) := by
  by_cases h3 : classifyWith m op = .countThree
  · rw [decodeWith_countThree rest h3] at h; cases h
    exact .inr (.inl ⟨rfl, .inl h3⟩)
  by_cases hother : classifyWith m op = .undefinedOther
  · rw [decodeWith_undefinedOther rest hother] at h; cases h
    exact .inr (.inl ⟨rfl, .inr hother⟩)
  by_cases missing : rest.length < operandCount op
  · rw [decodeWith_missingOperand h3 hother missing] at h; cases h
    exact .inl ⟨rfl, missing, h3, hother⟩
  cases hclass : classifyWith m op with
  | countThree => exact absurd hclass h3
  | undefinedOther => exact absurd hclass hother
  | undefinedAlu =>
    rw [decodeWith_undefinedAlu hclass (Nat.not_lt.mp missing)] at h; cases h
    exact .inr (.inr ⟨rfl, rfl⟩)
  | defined o =>
    obtain ⟨i, rest', hok⟩ := hm.decodeWith_defined hclass (Nat.not_lt.mp missing)
    rw [hok] at h; cases h

/-- The ALU flag as a number: bit 5 of the opcode's value (R73). -/
theorem aluFlag_iff_div_mod (op : Byte) : aluFlag op = true ↔ op.toNat / 32 % 2 = 1 := by
  rw [aluFlag, BitVec.getLsbD, Nat.testBit_eq_decide_div_mod_eq, decide_eq_true_iff]

/-- The PC-control flag as a number: bit 4 of the opcode's value (R74). -/
theorem pcControlFlag_iff_div_mod (op : Byte) : pcControlFlag op = true ↔ op.toNat / 16 % 2 = 1 := by
  rw [pcControlFlag, BitVec.getLsbD, Nat.testBit_eq_decide_div_mod_eq, decide_eq_true_iff]

/-- An instruction is its opcode and the operands its operation names (R70, R76). -/
theorem encode_length (i : Instr) : (encode i).length = 1 + i.operation.operandCount := by
  rw [encode, encodeWith, List.length_cons, i.operands_length, Nat.add_comm]

theorem encode_length_le_three (i : Instr) : (encode i).length ≤ 3 := by
  have := i.operation.operandCount_le_two
  rw [encode_length]; omega

end Sys2Proof

/-! ## The fetch and the step it leads to (R102 to R104) -/

namespace Sys2Proof.Machine

theorem State.faults_raise (s : State) (kind : FaultKind) (info : Nat) : Faults kind info s (s.raise kind info) :=
  ⟨rfl, rfl, rfl, rfl, rfl, rfl⟩

theorem step_of_fetched {s : State} {i : Instr} {rest : List Byte} (running : s.runState = .running)
    (h : s.fetched = .ok i rest) : step s = exec i s := by
  rw [step_running running, cycle, h]

theorem step_of_fetch_error {s : State} {e : DecodeError} (running : s.runState = .running)
    (h : s.fetched = .error e) : step s = .next (s.raiseDecode e) := by
  rw [step_running running, cycle, h]

/-- Below 256 the fetch reads the opcode at `pc`, and after it as many operand bytes, at most two, as lie below 256. -/
theorem State.fetchBytes_eq_cons {s : State} (h : s.pc.toNat < 256) :
    ∃ tail, s.fetchBytes = s.mem.get s.pc.toNat :: tail ∧ tail.length = min 2 (255 - s.pc.toNat) := by
  refine ⟨s.mem.bytesFrom (s.pc.toNat + 1) 2, s.mem.bytesFrom_in_range 2 h, ?_⟩
  rw [Memory.bytesFrom_length, show Config.memSize = 256 from rfl]; omega

theorem State.fetchBytes_head {s : State} (h : s.pc.toNat < 256) :
    s.fetchBytes.head? = some (s.mem.get s.pc.toNat) := by
  obtain ⟨tail, hbytes, -⟩ := State.fetchBytes_eq_cons h
  rw [hbytes, List.head?_cons]

/-- At 256 and above the fetch reads nothing, and the opcode is the missing byte. -/
theorem State.fetched_past_the_top {s : State} (h : 256 ≤ s.pc.toNat) : s.fetched = .error (.missingByte 0) := by
  rw [State.fetched, State.fetchBytes, s.mem.bytesFrom_out_of_range _ h]; rfl

/-- What was fetched stands in memory at `pc`. -/
theorem State.fetchBytes_of_fetched {s : State} {i : Instr} {rest : List Byte} (h : s.fetched = .ok i rest) :
    s.fetchBytes = encode i ++ rest :=
  decodedBytesAreTheEncoding opcodes s.fetchBytes i rest h

/-- Settles O7: the cycle of a running machine dispatches what it fetched. -/
theorem stepRunsTheDecodedInstruction : Obligations.StepRunsTheDecodedInstruction :=
  fun _ _ _ running h => step_of_fetched running h

/-- An encoding that can be read at `pc` is what the fetch begins with. -/
theorem State.fetched_of_read {s : State} {i : Instr}
    (h : ∀ k (hk : k < (encode i).length), s.mem.read (s.pc.toNat + k) = some (encode i)[k]) :
    ∃ rest, s.fetched = .ok i rest := by
  have htake : s.fetchBytes.take (encode i).length = encode i := by
    refine List.ext_getElem? fun k => ?_
    by_cases hk : k < (encode i).length
    · have := encode_length_le_three i
      rw [List.getElem?_take_of_lt hk, State.fetchBytes, Memory.bytesFrom_getElem? _ _ _ _ (by omega), h k hk,
        List.getElem?_eq_getElem hk]
    · rw [List.getElem?_eq_none (by simp; omega), List.getElem?_eq_none (by omega)]
  refine ⟨s.fetchBytes.drop (encode i).length, ?_⟩
  have hsplit := List.take_append_drop (encode i).length s.fetchBytes
  rw [htake] at hsplit
  rw [State.fetched, ← hsplit, decode_encode, hsplit]

/-- Settles O8: the fetch begins with the encoding, which decodes to the instruction. -/
theorem instructionInMemoryIsExecuted : Obligations.InstructionInMemoryIsExecuted := by
  intro s i running h
  obtain ⟨rest, hf⟩ := State.fetched_of_read h
  exact step_of_fetched running hf

/-- Settles O10: at 256 the first byte of the fetch is missing, below it the first byte is the one at `pc`. -/
theorem opcodeFetchReadsPcOrFaults : Obligations.OpcodeFetchReadsPcOrFaults := by
  refine fun s running => ⟨fun top => ?_, State.fetchBytes_head⟩
  exact ⟨_, step_of_fetch_error running (State.fetched_past_the_top top), s.faults_raise _ _⟩

/-! ### The decode faults as steps -/

/-- An opcode of the two rejected classes faults at decode, wherever its operand bytes would lie (R103). -/
theorem step_faults_of_unknown {s : State} (running : s.runState = .running) (below : s.pc.toNat < 256)
    (h : classify (s.mem.get s.pc.toNat) = .countThree ∨ classify (s.mem.get s.pc.toNat) = .undefinedOther) :
    ∃ t, step s = .next t ∧ Faults .unknownInstruction (s.mem.get s.pc.toNat).toNat s t := by
  obtain ⟨tail, hbytes, -⟩ := State.fetchBytes_eq_cons below
  have hf : s.fetched = .error (.unknownInstruction (s.mem.get s.pc.toNat)) := by
    rw [State.fetched, hbytes]
    exact h.elim (decodeWith_countThree tail) (decodeWith_undefinedOther tail)
  exact ⟨_, step_of_fetch_error running hf, s.faults_raise _ _⟩

/-- Settles O12: the fetch reads up to 255, so the first operand byte it misses is the one at 256. -/
theorem operandFetchPastTheTopFaults : Obligations.OperandFetchPastTheTopFaults := by
  intro s running below h3 hother top
  obtain ⟨tail, hbytes, hlen⟩ := State.fetchBytes_eq_cons below
  have hle := operandCount_le_two_of_ne_countThree h3
  have hf : s.fetched = .error (.missingByte (tail.length + 1)) := by
    rw [State.fetched, hbytes]
    exact decodeWith_missingOperand h3 hother (by omega)
  refine ⟨_, step_of_fetch_error running hf, ?_⟩
  have htop : s.pc.toNat + (tail.length + 1) = 256 := by omega
  rw [State.raiseDecode, htop]
  exact s.faults_raise _ _

theorem step_faults_of_undefinedAlu {s : State} (running : s.runState = .running)
    (fits : s.pc.toNat + operandCount (s.mem.get s.pc.toNat) < 256)
    (h : classify (s.mem.get s.pc.toNat) = .undefinedAlu) :
    ∃ t, step s = .next t ∧ Faults .unsupportedAluOperation (s.mem.get s.pc.toNat).toNat s t := by
  obtain ⟨tail, hbytes, hlen⟩ := State.fetchBytes_eq_cons (Nat.lt_of_le_of_lt (Nat.le_add_right _ _) fits)
  have hle := operandCount_le_two_of_ne_countThree (h.trans_ne nofun)
  have hf : s.fetched = .error (.unsupportedAluOperation (s.mem.get s.pc.toNat)) := by
    rw [State.fetched, hbytes]
    exact decodeWith_undefinedAlu h (by omega)
  exact ⟨_, step_of_fetch_error running hf, s.faults_raise _ _⟩

/-- Settles O13: with the operand bytes there, the decoder rejects the opcode by its tag. -/
theorem undefinedAluOpcodeFaultsAfterTheFetch : Obligations.UndefinedAluOpcodeFaultsAfterTheFetch :=
  ⟨fun _ running fits h => step_faults_of_undefinedAlu running fits h, count_undefinedAlu_opcodes⟩

/-- Settles O11: the flags are bits of the opcode's value; its class decides between the fault at decode and one after
the operand fetch. -/
theorem decodeSplitsTheOpcodeAndRejectsUnknown : Obligations.DecodeSplitsTheOpcodeAndRejectsUnknown := by
  refine ⟨fun op => ⟨operandCount_eq_div op, aluFlag_iff_div_mod op, pcControlFlag_iff_div_mod op⟩,
    fun s running below => ⟨fun h => ?unknown, fun hne halu hundef => ?later⟩⟩
  case unknown =>
    refine step_faults_of_unknown running below ?_
    by_cases h3 : operandCount (s.mem.get s.pc.toNat) = 3
    · exact .inl (classifyWith_eq_countThree_iff.mpr h3)
    · obtain ⟨halu, hundef⟩ := h.resolve_left h3
      exact .inr (classifyWith_eq_undefinedOther_iff.mpr ⟨h3, hundef, halu⟩)
  case later =>
    have hclass : classify (s.mem.get s.pc.toNat) = .undefinedAlu :=
      classifyWith_eq_undefinedAlu_iff.mpr ⟨hne, hundef, halu⟩
    by_cases fits : s.pc.toNat + operandCount (s.mem.get s.pc.toNat) < 256
    · obtain ⟨t, hstep, hfaults⟩ := step_faults_of_undefinedAlu running fits hclass
      exact ⟨t, _, _, hstep, hfaults, by simp⟩
    · obtain ⟨t, hstep, hfaults⟩ := operandFetchPastTheTopFaults s running below (by simp [hclass]) (by simp [hclass])
        (Nat.not_lt.mp fits)
      exact ⟨t, _, _, hstep, hfaults, by simp⟩

/-- Settles O51: 0x00 is an undefined opcode without the ALU flag. -/
theorem runningIntoZeroFaults : Obligations.RunningIntoZeroFaults := by
  intro s running below hzero
  have hclass : classify 0x00#8 = .undefinedOther := by decide
  have hstep := step_faults_of_unknown running below (.inr (hzero ▸ hclass))
  rwa [hzero] at hstep

/-! ### A placed instruction (R248) -/

/-- The copy of bytes puts each at its place. -/
theorem Memory.get_storeFrom (m : Memory) (a : Nat) (bytes : List Byte) {k : Nat} (hk : k < bytes.length) :
    (m.storeFrom a bytes).get (a + k) = bytes[k] := by
  induction bytes generalizing m a k with
  | nil => exact absurd hk (Nat.not_lt_zero k)
  | cons v vs ih =>
    rw [Memory.storeFrom]
    cases k with
    | zero => exact (Memory.get_storeFrom_below _ vs (Nat.lt_succ_self a)).trans (m.get_set_same a v)
    | succ k =>
      have := ih (m.set a v) (a + 1) (Nat.lt_of_succ_lt_succ hk)
      rwa [Nat.add_assoc, Nat.add_comm 1 k] at this

/-- A number's lowest byte, where the number is a byte on top of others. -/
theorem ofNat_toNat_add_mul (b : Byte) (n : Nat) : BitVec.ofNat 8 (b.toNat + 256 * n) = b := by
  refine BitVec.eq_of_toNat_eq ?_
  rw [BitVec.toNat_ofNat, Nat.add_mul_mod_self_left, Nat.mod_eq_of_lt b.isLt]

theorem toNat_add_mul_div (b : Byte) (n : Nat) : (b.toNat + 256 * n) / 256 = n := by
  have := b.isLt
  omega

/-- The number of a list of bytes, the first byte lowest, as the opcode table numbers a word. -/
def wordOf (bytes : List Byte) : Nat := bytes.foldr (fun b n => b.toNat + 256 * n) 0

theorem wordOf_lt (bytes : List Byte) : wordOf bytes < 2 ^ (8 * bytes.length) := by
  induction bytes with
  | nil => exact Nat.one_pos
  | cons b bs ih =>
    have := b.isLt
    rw [List.length_cons, Nat.mul_add, Nat.pow_add]
    simp only [wordOf, List.foldr_cons] at ih ⊢
    omega

/-- The word made of at most three bytes gives them back, and zeros up to three. -/
theorem tableBytes_wordOf {bytes : List Byte} (h : bytes.length ≤ 3) :
    tableBytes (8 * bytes.length) (wordOf bytes) = bytes ++ List.replicate (3 - bytes.length) 0#8 := by
  have hw : wordOf bytes % 2 ^ (8 * bytes.length) = wordOf bytes := Nat.mod_eq_of_lt (wordOf_lt bytes)
  have hthird (n : Nat) : n / 65536 = n / 256 / 256 := by rw [Nat.div_div_eq_div_mul]
  rw [tableBytes, hw, hthird]
  match bytes, h with
  | [], _ => rfl
  | [a], _ => simp [wordOf, List.replicate, Nat.div_eq_of_lt a.isLt]
  | [a, b], _ =>
    simp [wordOf, ofNat_toNat_add_mul, toNat_add_mul_div, Nat.div_eq_of_lt b.isLt]
  | [a, b, c], _ => simp [wordOf, ofNat_toNat_add_mul, toNat_add_mul_div]

/-- Bytes are placed at a `pc` from which as many of them as the first names lie below 256. -/
theorem State.placeBytes_eq (s : State) (bytes : List Byte) :
    ∃ start : State, start.pc.toNat + (1 + operandCount (bytes.headD 0#8)) ≤ 256 ∧
      s.placeBytes bytes = { start with
        runState := .running
        mem := start.mem.storeFrom start.pc.toNat (bytes.take (256 - start.pc.toNat)) } := by
  by_cases fits : s.fitsAtPc (1 + operandCount (bytes.headD 0#8)) = true
  · exact ⟨s, of_decide_eq_true fits, by simp only [State.placeBytes, if_pos fits]⟩
  · refine ⟨s.setPc Config.pcReset, ?_, by simp only [State.placeBytes, if_neg fits]⟩
    have := operandCount_le_three (bytes.headD 0#8)
    change 0 + _ ≤ 256
    omega

/-- A machine whose next bytes are placed is running and reads the instruction they begin with at its `pc`. -/
theorem State.placeBytes_reads (s : State) (i : Instr) (pad : List Byte) :
    (s.placeBytes (encode i ++ pad)).runState = .running ∧
      ∀ k (hk : k < (encode i).length),
        (s.placeBytes (encode i ++ pad)).mem.read ((s.placeBytes (encode i ++ pad)).pc.toNat + k) =
          some (encode i)[k] := by
  have hlen : 1 + operandCount ((encode i ++ pad).headD 0#8) = (encode i).length := by
    rw [encode_length, ← (opcodeBitsAgreeWithOperations.1 i.operation).1]; rfl
  obtain ⟨start, fits, hplaced⟩ := s.placeBytes_eq (encode i ++ pad)
  rw [hlen] at fits
  refine ⟨by rw [hplaced], fun k hk => ?_⟩
  have hkt : k < ((encode i ++ pad).take (256 - start.pc.toNat)).length := by
    rw [List.length_take, List.length_append]; omega
  have hbelow : start.pc.toNat + k < 256 := by omega
  rw [hplaced, Memory.read_eq_some _ hbelow, Memory.get_storeFrom _ _ _ hkt, List.getElem_take,
    List.getElem_append_left hk]

/-- Settles O9: the word's bytes are the encoding and zeros after it, and placed at `pc` they are what the next step
fetches. -/
theorem placedWordIsExecuted : Obligations.PlacedWordIsExecuted := by
  intro s i
  have hbytes := tableBytes_wordOf (encode_length_le_three i)
  refine ⟨?decodes, ?executes⟩
  case decodes => rw [decodeTableWord, ← wordOf, hbytes, decode_encode]
  case executes =>
    rw [State.withFetchWord, ← wordOf, hbytes]
    obtain ⟨running, hread⟩ := s.placeBytes_reads i (List.replicate (3 - (encode i).length) 0#8)
    exact instructionInMemoryIsExecuted _ i running hread

end Sys2Proof.Machine

/-! ## Where the fetched instruction stands -/

namespace Sys2Proof.Machine

/-- A fetched instruction ends below 256. -/
theorem State.fits_of_fetched {s : State} {i : Instr} {rest : List Byte} (h : s.fetched = .ok i rest) :
    s.pc.toNat + (encode i).length ≤ 256 := by
  have hlen := s.fetchBytes_length
  have hpos := encode_length i
  rw [State.fetchBytes_of_fetched h, List.length_append, show Config.memSize = 256 from rfl] at hlen
  omega

/-- The byte at `pc` is the opcode of the fetched instruction. -/
theorem State.opcode_of_fetched {s : State} {i : Instr} {rest : List Byte} (h : s.fetched = .ok i rest) :
    s.mem.get s.pc.toNat = opcodes i.operation := by
  have hfits := State.fits_of_fetched h
  have hpos := encode_length i
  obtain ⟨tail, hbytes, -⟩ := State.fetchBytes_eq_cons (s := s) (by omega)
  rw [State.fetchBytes_of_fetched h] at hbytes
  exact (List.cons.inj hbytes).1.symm

theorem step_executes_of_fetched {s t : State} {i : Instr} {rest : List Byte} (hf : s.fetched = .ok i rest)
    (h : step s = .next t) : Executes s i t := by
  rw [step_of_fetched (step_next h).1 hf] at h
  exact exec_next h

/-! ## Faults (R214) -/

@[simp] theorem State.raiseDecode_spWrapPolicy (s : State) (e : DecodeError) :
    (s.raiseDecode e).spWrapPolicy = s.spWrapPolicy := by
  cases e <;> rfl

@[simp] theorem State.notFaulted_raise (s : State) (k : FaultKind) (n : Nat) : (s.raise k n).notFaulted = false := rfl

/-- What a rejected decode raises is a record the spec allows, from every `pc` it can stand at: the missing byte is
the one at 256, and the opcode is of the class its fault names. -/
theorem State.raiseDecode_valid {s : State} {e : DecodeError} (hpc : s.pc.toNat ≤ 256) (h : s.fetched = .error e) :
    ∃ kind info, s.raiseDecode e = s.raise kind info ∧ FaultRecord.valid s.spWrapPolicy ⟨kind, s.pc, info⟩ := by
  by_cases below : s.pc.toNat < 256
  · obtain ⟨tail, hbytes, hlen⟩ := State.fetchBytes_eq_cons below
    rw [State.fetched, hbytes] at h
    obtain ⟨rfl, hmissing, h3, -⟩ | ⟨rfl, hclass⟩ | ⟨rfl, hclass⟩ :=
      opcodeBitsAgreeWithOperations.decodeWith_eq_error h
    · have hle := operandCount_le_two_of_ne_countThree h3
      exact ⟨_, _, rfl, show s.pc.toNat + (tail.length + 1) = 256 by omega⟩
    · exact ⟨_, _, rfl, _, rfl, hclass⟩
    · exact ⟨_, _, rfl, _, rfl, hclass⟩
  · rw [State.fetched_past_the_top (Nat.not_lt.mp below)] at h
    cases h
    exact ⟨_, _, rfl, show s.pc.toNat + 0 = 256 by omega⟩

theorem State.raiseDecode_eq_raise (s : State) (e : DecodeError) :
    ∃ kind info, s.raiseDecode e = s.raise kind info := by
  cases e <;> exact ⟨_, _, rfl⟩

/-- An instruction that ends below 256 raises a fault with a record the spec allows, or it completes and leaves the run
state or halts. -/
theorem Executes.raises_or_completes {i : Instr} {s t : State} (h : Executes s i t)
    (fits : s.pc.toNat + (encode i).length ≤ 256) :
    (∃ kind info, t = s.raise kind info ∧ FaultRecord.valid s.spWrapPolicy ⟨kind, s.pc, info⟩) ∨
      t.runState = s.runState ∨ t.runState = .halted := by
  cases h with
  | @invalidRegister _ r _ invalid => exact .inl ⟨_, _, rfl, invalid, r.isLt⟩
  | callOutOfRange _ top =>
    rw [encode_length] at fits
    exact .inl ⟨_, _, rfl, Nat.le_antisymm fits top⟩
  | pushWraps _ policy | popWraps _ policy | callWraps _ _ policy | retWraps policy =>
    exact .inl ⟨_, _, rfl, policy, s.sp.isLt⟩
  | hlt => exact .inr (.inr (by simp))
  | _ => exact .inr (.inl (by simp))

/-- The inversion of `step` by its end: a fault of the spec and nothing else, or an instruction that completed. -/
theorem step_raises_or_completes {s t : State} (h : step s = .next t) :
    (∃ kind info, t = s.raise kind info) ∨ t.notFaulted = true := by
  obtain ⟨running, -⟩ := step_next h
  obtain ⟨i, rest, hf, he⟩ | ⟨e, -, rfl⟩ := step_next_executes h
  · obtain ⟨kind, info, ht, -⟩ | hsame | hhalted := he.raises_or_completes (State.fits_of_fetched hf)
    · exact .inl ⟨kind, info, ht⟩
    · exact .inr (by rw [State.notFaulted, hsame, running])
    · exact .inr (by rw [State.notFaulted, hhalted])
  · exact .inl (s.raiseDecode_eq_raise e)

theorem State.notFaulted_eq_false_of_faulted {s : State} {r : FaultRecord} (h : s.runState = .faulted r) :
    s.notFaulted = false := by
  rw [State.notFaulted, h]

/-- Settles O17: a step that does not complete is `raise` on the state at its start. -/
theorem faultsArePrecise : Obligations.FaultsArePrecise := by
  intro s t r h hfaulted
  obtain ⟨kind, info, rfl⟩ | hok := step_raises_or_completes h
  · cases hfaulted
    exact ⟨rfl, s.faults_raise kind info⟩
  · rw [State.notFaulted_eq_false_of_faulted hfaulted] at hok
    cases hok

/-! ### Runs -/

theorem runSteps_succ_of_step {s t : State} (h : step s = .next t) (fuel : Nat) :
    runSteps (fuel + 1) s = runSteps fuel t := by
  rw [runSteps, h]

/-- A run can be cut at any number of its steps. -/
theorem runSteps_add (j k : Nat) (s : State) : runSteps (j + k) s = runSteps k (runSteps j s) := by
  induction j generalizing s with
  | zero => rw [Nat.zero_add, runSteps]
  | succ j ih =>
    cases hstep : step s with
    | next t => rw [Nat.add_right_comm, runSteps_succ_of_step hstep, runSteps_succ_of_step hstep, ih]
    | fault r | refused r =>
      have hstop := runSteps_of_no_step (s := s) (by simp [hstep])
      simp only [hstop]

theorem runSteps_of_faulted {s : State} {r : FaultRecord} (h : s.runState = .faulted r) (fuel : Nat) :
    runSteps fuel s = s :=
  runSteps_of_no_step (by simp [step_faulted h]) fuel

/-- Settles O18: a run that has met FAULTED stays there, so its end is FAULTED too. -/
theorem unfaultedEndMeansSafeRun : Obligations.UnfaultedEndMeansSafeRun := by
  intro fuel s hend k hk
  cases hstate : (runSteps k s).runState with
  | running | halted => rw [State.notFaulted, hstate]
  | faulted r =>
    rw [← Nat.add_sub_of_le hk, runSteps_add, runSteps_of_faulted hstate] at hend
    exact hend

/-! ## The launch parameter (R175) -/

theorem Executes.spWrapPolicy_eq {i : Instr} {s t : State} (h : Executes s i t) : t.spWrapPolicy = s.spWrapPolicy := by
  cases h <;> simp

/-- Settles O23: neither an executed instruction nor a decode fault writes the policy. -/
theorem launchParameterIsConstant : Obligations.LaunchParameterIsConstant := by
  intro s t h
  obtain ⟨i, rest, -, he⟩ | ⟨e, -, rfl⟩ := step_next_executes h
  · exact he.spWrapPolicy_eq
  · exact s.raiseDecode_spWrapPolicy e

/-! ## The program counter (R27, R107, R192) -/

/-- Where a completed instruction leaves `pc`: just past it, or where RET or CALL sets it. -/
theorem Executes.pc_eq {i : Instr} {s t : State} (h : Executes s i t) (ok : t.notFaulted = true) :
    (i.operation.setsPc = false ∧ t.pc = s.pc + BitVec.ofNat 9 (encode i).length) ∨
    (i = .ret ∧ t.pc = (s.loadByte s.sp).setWidth 9) ∨
    ∃ (r : Byte) (hr : r.toNat < 8), i = .call r ∧ t.pc = (s.decSp.readReg ⟨r.toNat, hr⟩).setWidth 9 := by
  cases h with
  | invalidRegister | callOutOfRange | pushWraps | popWraps | callWraps | retWraps => simp at ok
  | hlt | prn | ldi | add | mul | push | pop => exact .inl ⟨rfl, rfl⟩
  | ret => exact .inr (.inl ⟨rfl, rfl⟩)
  | call valid => exact .inr (.inr ⟨_, valid, rfl, rfl⟩)

/-- The advance of an instruction that ends below 256 does not wrap the nine-bit `pc`. -/
theorem toNat_pc_advance {p : PcWord} {n : Nat} (h : p.toNat + n ≤ 256) :
    (p + BitVec.ofNat 9 n).toNat = p.toNat + n := by
  rw [BitVec.toNat_add, BitVec.toNat_ofNat]
  omega

/-- A byte as a `pc` keeps its value. -/
theorem toNat_setWidth_nine (b : Byte) : (b.setWidth 9).toNat = b.toNat := by
  have := b.isLt
  rw [BitVec.toNat_setWidth]
  omega

/-- `pc` as a number after a fetched instruction completes: the advance does not wrap. -/
theorem Executes.pc_toNat {i : Instr} {s t : State} {rest : List Byte} (h : Executes s i t)
    (hf : s.fetched = .ok i rest) (ok : t.notFaulted = true) :
    (i.operation.setsPc = false ∧ t.pc.toNat = s.pc.toNat + (encode i).length) ∨
    (i = .ret ∧ t.pc.toNat = (s.mem.get s.sp.toNat).toNat) ∨
    ∃ (r : Byte) (hr : r.toNat < 8), i = .call r ∧ t.pc.toNat = (s.decSp.readReg ⟨r.toNat, hr⟩).toNat := by
  obtain ⟨hsets, hpc⟩ | ⟨rfl, hpc⟩ | ⟨r, hr, rfl, hpc⟩ := h.pc_eq ok
  · exact .inl ⟨hsets, by rw [hpc, toNat_pc_advance (State.fits_of_fetched hf)]⟩
  · exact .inr (.inl ⟨rfl, by rw [hpc, toNat_setWidth_nine]; rfl⟩)
  · exact .inr (.inr ⟨r, hr, rfl, by rw [hpc, toNat_setWidth_nine]⟩)

/-- Decrementing SP leaves every other register alone. -/
theorem State.readReg_decSp_other (s : State) {j : Fin 8} (h : j ≠ 7) : s.decSp.readReg j = s.readReg j := by
  rw [State.readReg_decSp, if_neg h]

/-- The register an operand byte names is R7 only for the byte 7. -/
theorem register_ne_seven {r : Byte} (hr : r.toNat < 8) (h : r ≠ 7#8) : (⟨r.toNat, hr⟩ : Fin 8) ≠ 7 :=
  fun h7 => h (BitVec.eq_of_toNat_eq (Fin.val_eq_of_eq h7 :))

/-- Settles O25: the opcode's flag and count are those of the instruction, which decide between the advance and the
handler's own `pc`. -/
theorem pcAdvancesUnlessTheHandlerSetsIt : Obligations.PcAdvancesUnlessTheHandlerSetsIt := by
  intro s t i rest hf h ok
  obtain ⟨hcount, -, hflag⟩ := opcodeBitsAgreeWithOperations.1 i.operation
  rw [State.opcode_of_fetched hf, hcount, hflag]
  obtain ⟨hsets, hpc⟩ | ⟨rfl, hpc⟩ | ⟨r, hr, rfl, hpc⟩ := (step_executes_of_fetched hf h).pc_toNat hf ok
  · refine ⟨fun _ => by rw [hpc, encode_length]; omega, fun hset => ?_⟩
    rw [hsets] at hset
    cases hset
  · exact ⟨nofun, fun _ => .inl ⟨rfl, hpc⟩⟩
  · refine ⟨nofun, fun _ => .inr ⟨r, hr, rfl, fun hne => ?_⟩⟩
    rw [hpc, s.readReg_decSp_other (register_ne_seven hr hne)]

/-- Settles O26: of the three ways to leave `pc` only those of RET and CALL do not put it past the instruction. -/
theorem onlyCallAndRetTransferControl : Obligations.OnlyCallAndRetTransferControl := by
  intro s t i rest hf h ok haway
  obtain ⟨-, hpc⟩ | ⟨rfl, -⟩ | ⟨r, -, rfl, -⟩ := (step_executes_of_fetched hf h).pc_toNat hf ok
  · exact absurd hpc haway
  · exact .inl rfl
  · exact .inr ⟨r, rfl⟩

/-- Settles O27: a fault keeps `pc`, RET and CALL set it to a byte, and the advance ends at 256 at the latest. -/
theorem pcReachesTheTopOnlyByAdvance : Obligations.PcReachesTheTopOnlyByAdvance := by
  intro s t hle h
  obtain ⟨kind, info, rfl⟩ | ok := step_raises_or_completes h
  · exact ⟨hle, fun hok => by simp at hok⟩
  · obtain ⟨i, rest, hf, he⟩ | ⟨e, -, rfl⟩ := step_next_executes h
    · have hfits := State.fits_of_fetched hf
      obtain ⟨hsets, hpc⟩ | ⟨-, hpc⟩ | ⟨r, hr, -, hpc⟩ := he.pc_toNat hf ok
      · exact ⟨hpc ▸ hfits, fun _ htop => ⟨i, rest, hf, hsets, hpc ▸ htop⟩⟩
      · have hbyte := (s.mem.get s.sp.toNat).isLt
        exact ⟨by omega, fun _ htop => by omega⟩
      · have hbyte := (s.decSp.readReg ⟨r.toNat, hr⟩).isLt
        exact ⟨by omega, fun _ htop => by omega⟩
    · obtain ⟨kind, info, hraise⟩ := s.raiseDecode_eq_raise e
      simp [hraise] at ok

/-! ## The invariant -/

/-- An instruction or a fault writes memory at a byte address or not at all. -/
theorem step_keeps_wf {s t : State} (h : step s = .next t) (hwf : s.mem.wf = true) : t.mem.wf = true := by
  obtain ⟨i, rest, -, he⟩ | ⟨e, -, rfl⟩ := step_next_executes h
  · obtain hmem | ⟨-, v, hmem⟩ := he.mem_eq
    · rwa [hmem]
    · rw [hmem]; exact Memory.wf_set v (s.sp - 1#8).isLt hwf
  · rwa [State.raiseDecode_mem]

/-- The record a step leaves names the `pc` it stands at and is one the spec allows. -/
theorem step_record_valid {s t : State} {r : FaultRecord} (hpc : s.pc.toNat ≤ 256) (h : step s = .next t)
    (hfaulted : t.runState = .faulted r) : r.pc = t.pc ∧ r.valid t.spWrapPolicy := by
  obtain ⟨running, -⟩ := step_next h
  obtain ⟨i, rest, hf, he⟩ | ⟨e, hf, rfl⟩ := step_next_executes h
  · obtain ⟨kind, info, rfl, hvalid⟩ | hsame | hhalted := he.raises_or_completes (State.fits_of_fetched hf)
    · cases hfaulted; exact ⟨rfl, hvalid⟩
    · rw [hsame, running] at hfaulted; cases hfaulted
    · rw [hhalted] at hfaulted; cases hfaulted
  · obtain ⟨kind, info, hraise, hvalid⟩ := State.raiseDecode_valid hpc hf
    rw [hraise] at hfaulted ⊢
    cases hfaulted; exact ⟨rfl, hvalid⟩

/-- Settles O19: memory is written at byte addresses, `pc` stays in range, and every fault's record is allowed. -/
theorem stepKeepsTheInvariant : Obligations.StepKeepsTheInvariant := by
  intro s t hinv h
  exact {
    memory := step_keeps_wf h hinv.memory
    pcRange := (pcReachesTheTopOnlyByAdvance s t hinv.pcRange h).1
    record := fun _ hfaulted => step_record_valid hinv.pcRange h hfaulted }

/-- Settles O20: memory is empty at reset, and an image that loads is copied below 256. -/
theorem resetMeetsTheInvariant : Obligations.ResetMeetsTheInvariant := by
  intro regInit policy image c
  refine ⟨⟨rfl, Nat.zero_le 256, nofun⟩, fun h => ?_⟩
  obtain ⟨-, hlen, rfl⟩ := load_next h
  exact ⟨Memory.wf_storeFrom (by rwa [Nat.zero_add]) rfl, Nat.zero_le 256, nofun⟩

/-! ### The canonical form determines the list -/

/-- A listed entry does not read as an unlisted one, so a memory that lists an address reads otherwise there than a
memory whose entries lie above it. -/
theorem Memory.get_ne_of_wfFrom {low a : Nat} {v : Byte} {m m' : Memory} (h : Memory.wfFrom low ((a, v) :: m) = true)
    (h' : Memory.wfFrom (a + 1) m' = true) : Memory.get ((a, v) :: m) a ≠ m'.get a := by
  rw [Memory.wfFrom_cons] at h
  rw [Memory.get_cons, if_pos rfl, Memory.get_below_wfFrom h' (Nat.lt_succ_self a)]
  exact h.2.2.1

theorem Memory.eq_of_get_eq {low : Nat} {m m' : Memory} (h : Memory.wfFrom low m = true)
    (h' : Memory.wfFrom low m' = true) (heq : ∀ a, a < 256 → m.get a = m'.get a) : m = m' := by
  induction m generalizing low m' with
  | nil =>
    cases m' with
    | nil => rfl
    | cons c' m' =>
      have hlt := ((Memory.wfFrom_cons ..).mp h').2.1
      exact absurd (heq _ hlt).symm (Memory.get_ne_of_wfFrom h' rfl)
  | cons c m ih =>
    obtain ⟨a, v⟩ := c
    obtain ⟨-, ha, -, hm⟩ := (Memory.wfFrom_cons ..).mp h
    cases m' with
    | nil => exact absurd (heq a ha) (Memory.get_ne_of_wfFrom h rfl)
    | cons c' m' =>
      obtain ⟨b, w⟩ := c'
      obtain ⟨-, hb, hw, hm'⟩ := (Memory.wfFrom_cons ..).mp h'
      obtain hlt | rfl | hgt := Nat.lt_trichotomy a b
      · have habove := (Memory.wfFrom_cons (a + 1) b w m').mpr ⟨hlt, hb, hw, hm'⟩
        exact absurd (heq a ha) (Memory.get_ne_of_wfFrom h habove)
      · have hvw : v = w := by simpa [Memory.get_cons] using heq a ha
        have hrest : ∀ x, x < 256 → Memory.get m x = Memory.get m' x := by
          intro x hx
          by_cases hxa : x = a
          · rw [hxa, Memory.get_below_wfFrom hm (Nat.lt_succ_self a), Memory.get_below_wfFrom hm' (Nat.lt_succ_self a)]
          · simpa [Memory.get_cons, hxa] using heq x hx
        rw [hvw, ih hm hm' hrest]
      · have hv := ((Memory.wfFrom_cons ..).mp h).2.2.1
        have habove := (Memory.wfFrom_cons (b + 1) a v m).mpr ⟨hgt, ha, hv, hm⟩
        exact absurd (heq b hb).symm (Memory.get_ne_of_wfFrom h' habove)

/-- Settles O24: the heads of two canonical lists that read the same agree, and so do their tails. -/
theorem canonicalMemoryIsDeterminedByItsBytes : Obligations.CanonicalMemoryIsDeterminedByItsBytes :=
  fun _ _ h h' heq => Memory.eq_of_get_eq h h' heq

end Sys2Proof.Machine

/-! ## The instructions one by one: result and frame -/

namespace Sys2Proof.Machine

/-! ### LDI, PRN, HLT (R130 to R132) -/

theorem execLdi_valid {r imm : Byte} {s : State} (hr : r.toNat < 8) :
    execLdi r imm s = .next ((s.writeReg ⟨r.toNat, hr⟩ imm).advancePc .ldi) := withRegister_valid hr

theorem execPrn_valid {r : Byte} {s : State} (hr : r.toNat < 8) :
    execPrn r s = .next ((s.emit (s.readReg ⟨r.toNat, hr⟩)).advancePc .prn) := withRegister_valid hr

/-- The frame of one register write. -/
theorem sameRegsExcept_writeReg (s : State) (d : Fin 8) (v : Byte) : SameRegsExcept [d] s (s.writeReg d v) :=
  fun _ hj => s.readReg_writeReg_other v (List.ne_of_not_mem_cons hj)

/-- Settles O28: one register write and the advance. -/
theorem ldiLoadsTheImmediate : Obligations.LdiLoadsTheImmediate :=
  fun s r imm hr => ⟨_, execLdi_valid hr, s.readReg_writeReg_same ⟨r.toNat, hr⟩ imm,
    sameRegsExcept_writeReg s ⟨r.toNat, hr⟩ imm, rfl, fun _ => rfl, rfl, rfl, rfl⟩

/-- Settles O29: one emitted byte and the advance. -/
theorem prnEmitsTheRegister : Obligations.PrnEmitsTheRegister :=
  fun _ _ hr => ⟨_, execPrn_valid hr, rfl, fun _ _ => rfl, rfl, fun _ => rfl, rfl, rfl⟩

/-- Settles O30: the advance and the halt write `pc` and the run state alone. -/
theorem hltAdvancesAndHalts : Obligations.HltAdvancesAndHalts :=
  fun _ => ⟨_, rfl, rfl, rfl, fun _ _ => rfl, fun _ => rfl, rfl, rfl⟩

/-- The opcode 0x01 at `pc` is fetched as HLT, whatever stands after it. -/
theorem State.fetched_hlt {s : State} (below : s.pc.toNat < 256) (h : s.mem.get s.pc.toNat = 0x01#8) :
    ∃ rest, s.fetched = .ok .hlt rest := by
  obtain ⟨tail, hbytes, -⟩ := State.fetchBytes_eq_cons below
  exact ⟨tail, by rw [State.fetched, hbytes, h, decode_hlt]⟩

/-- Settles O31: the fetched HLT advances without wrapping and halts, and a HALTED machine has no step; at 256 the
opcode fetch faults. -/
theorem hltStepEndsTheRun : Obligations.HltStepEndsTheRun := by
  refine fun s running => ⟨fun below hop => ?halts, fun top => ?faults⟩
  case halts =>
    obtain ⟨rest, hf⟩ := State.fetched_hlt below hop
    obtain ⟨t, hexec, halted, hpc, hregs, hmem, hout, -⟩ := hltAdvancesAndHalts s
    refine ⟨t, (step_of_fetched running hf).trans hexec, halted, ?_, hregs, hmem, hout, fun fuel => ?_⟩
    · rw [hpc]; exact toNat_pc_advance (n := 1) below
    · exact stepExistsExactlyWhenRunning.2 fuel t (by simp [halted])
  case faults =>
    have hfault := (opcodeFetchReadsPcOrFaults s running).1 top.ge
    rwa [top] at hfault

/-! ### ADD and MUL (R150 to R153) -/

/-- Settles O32: one register write of the byte sum, and the advance. -/
theorem addWritesTheSumModulo256 : Obligations.AddWritesTheSumModulo256 := by
  intro s r1 r2 h1 h2
  refine ⟨_, execAdd_valid h1 h2, ?_, sameRegsExcept_writeReg s ⟨r1.toNat, h1⟩ _, rfl, fun _ => rfl, rfl, rfl, rfl⟩
  rw [State.readReg_advancePc, State.readReg_writeReg_same, BitVec.toNat_add]

/-- Settles O33: one register write of the byte product, and the advance. -/
theorem mulWritesTheProductModulo256 : Obligations.MulWritesTheProductModulo256 := by
  intro s r1 r2 h1 h2
  refine ⟨_, execMul_valid h1 h2, ?_, sameRegsExcept_writeReg s ⟨r1.toNat, h1⟩ _, rfl, fun _ => rfl, rfl, rfl, rfl⟩
  rw [State.readReg_advancePc, State.readReg_writeReg_same, BitVec.toNat_mul]

theorem aluTag_other {op : Byte} (h : op ∉ [0xA0#8, 0xA2#8]) : aluTag op = .other op := by
  simp only [List.mem_cons, List.not_mem_nil, or_false, not_or] at h
  obtain ⟨hadd, hmul⟩ := h
  exact (if_neg hadd).trans (if_neg hmul)

/-- Settles O34: the two known tags give the byte sum and the byte product, any other its own rejection. -/
theorem aluAddsMultipliesAndRejects : Obligations.AluAddsMultipliesAndRejects := by
  intro v1 v2
  refine ⟨⟨_, alu_add v1 v2, BitVec.toNat_add v1 v2⟩, ⟨_, alu_mul v1 v2, BitVec.toNat_mul v1 v2⟩, ?commutes,
    fun op h => ?rejects⟩
  case commutes =>
    rintro tag (rfl | rfl)
    · rw [alu_add, alu_add, BitVec.add_comm]
    · rw [alu_mul, alu_mul, BitVec.mul_comm]
  case rejects => rw [aluTag_other h, alu]

/-! ### PUSH, POP, CALL and RET (R171, R172, R190, R191) -/

theorem State.pushAddress_eq (s : State) : s.pushAddress = s.sp - 1#8 := s.sp_decSp

theorem State.toNat_pushAddress (s : State) : s.pushAddress.toNat = (s.sp.toNat + 255) % 256 := by
  rw [s.pushAddress_eq, BitVec.toNat_sub, Nat.add_comm]; rfl

theorem State.decWraps_eq_false {s : State} (h : s.sp ≠ 0x00#8) : s.decWraps = false := beq_eq_false_iff_ne.mpr h

theorem State.incWraps_eq_false {s : State} (h : s.sp ≠ 0xFF#8) : s.incWraps = false := beq_eq_false_iff_ne.mpr h

/-- The register an operand byte names, read after the decrement: R7 is SP, already lowered (D9). -/
theorem State.readReg_decSp_operand (s : State) {r : Byte} (hr : r.toNat < 8) :
    s.decSp.readReg ⟨r.toNat, hr⟩ = if r = 7#8 then s.pushAddress else s.readReg ⟨r.toNat, hr⟩ := by
  split
  · next h => subst h; rfl
  · next h => exact s.readReg_decSp_other (register_ne_seven hr h)

/-- SP after a byte is loaded into the register an operand names. -/
theorem State.sp_writeReg_operand (s : State) {r : Byte} (hr : r.toNat < 8) (v : Byte) :
    (s.writeReg ⟨r.toNat, hr⟩ v).sp = if r = 7#8 then v else s.sp := by
  split
  · next h => subst h; exact s.readReg_writeReg_same _ v
  · next h => exact s.sp_writeReg_other v (register_ne_seven hr h)

theorem sameRegsExcept_decSp (s : State) : SameRegsExcept [7] s s.decSp := sameRegsExcept_writeReg s 7 _

theorem State.toNat_sp_incSp (s : State) : s.incSp.sp.toNat = (s.sp.toNat + 1) % 256 := by
  rw [s.sp_incSp, BitVec.toNat_add]; rfl

/-- Settles O35: the decrement, the store at the new SP, and the advance. -/
theorem pushStoresBelowTheStackPointer : Obligations.PushStoresBelowTheStackPointer := by
  intro s r hr hwrap
  refine ⟨_, execPush_of_noWrap hr fun hp => State.decWraps_eq_false (hwrap hp), s.toNat_pushAddress,
    State.sp_advancePc _ _, sameRegsExcept_decSp s, ?_, .of_mem_eq_set (State.advancePc_mem _ _), rfl, rfl, rfl, rfl⟩
  rw [← s.readReg_decSp_operand hr]
  exact Memory.get_set_same ..

/-- Settles O36: the load into the register, the increment of what SP then is, and the advance. -/
theorem popLoadsFromTheStackPointer : Obligations.PopLoadsFromTheStackPointer := by
  intro s r hr hwrap
  have hsp := s.sp_writeReg_operand hr (s.loadByte s.sp)
  have hno : s.spWrapPolicy = .fault → (s.writeReg ⟨r.toNat, hr⟩ (s.loadByte s.sp)).incWraps = false :=
    fun hp => State.incWraps_eq_false (hsp ▸ hwrap hp)
  refine ⟨_, execPop_of_noWrap hr hno, fun hne => ⟨?loaded, ?moved⟩, fun h7 => ?reloaded, fun j hj => ?frame,
    fun _ => rfl, rfl, rfl, rfl, rfl⟩
  case loaded =>
    rw [State.readReg_advancePc, State.readReg_incSp, if_neg (register_ne_seven hr hne), State.readReg_writeReg_same]
    rfl
  case moved => rw [State.sp_advancePc, State.toNat_sp_incSp, hsp, if_neg hne]
  case reloaded => rw [State.sp_advancePc, State.toNat_sp_incSp, hsp, if_pos h7]; rfl
  case frame =>
    simp only [List.mem_cons, List.not_mem_nil, or_false, not_or] at hj
    rw [State.readReg_advancePc, State.readReg_incSp, if_neg hj.2, State.readReg_writeReg_other _ _ hj.1]

/-- The return address CALL stores, where it fits in a byte. -/
theorem toNat_returnAddress {s : State} (h : s.pc.toNat + 2 < 256) :
    (BitVec.ofNat 8 s.returnAddress).toNat = s.pc.toNat + 2 := by
  rw [BitVec.toNat_ofNat]; exact Nat.mod_eq_of_lt h

/-- Settles O37: the decrement, the store of the return address, and the jump to the register as it then reads. -/
theorem callPushesTheReturnAddressAndJumps : Obligations.CallPushesTheReturnAddressAndJumps := by
  intro s r hr below hwrap
  refine ⟨_, execCall_of_noWrap hr below fun hp => State.decWraps_eq_false (hwrap hp), s.toNat_pushAddress,
    State.sp_advancePc _ _, sameRegsExcept_decSp s, ?stored, .of_mem_eq_set (State.advancePc_mem _ _),
    ?target, rfl, rfl, rfl⟩
  case stored =>
    rw [← toNat_returnAddress below]
    exact congrArg BitVec.toNat (Memory.get_set_same ..)
  case target =>
    rw [← s.readReg_decSp_operand hr]
    exact toNat_setWidth_nine _

/-- Settles O38: the load into `pc` and the increment. -/
theorem retPopsIntoPc : Obligations.RetPopsIntoPc := by
  intro s hwrap
  exact ⟨_, execRet_of_noWrap fun hp => State.incWraps_eq_false (hwrap hp), toNat_setWidth_nine _, s.toNat_sp_incSp,
    sameRegsExcept_writeReg s 7 _, fun _ => rfl, rfl, rfl, rfl⟩

/-! ### The faults an instruction raises (R215, R110, R175) -/

theorem execAlu_of_invalid_first (o : Operation) {r1 : Byte} (r2 : Byte) (s : State) (h1 : 8 ≤ r1.toNat) :
    execAlu o r1 r2 s = .next (s.raise .invalidRegister r1.toNat) :=
  withRegister_invalid h1

theorem execAlu_of_invalid_second (o : Operation) {r1 r2 : Byte} (s : State) (h1 : r1.toNat < 8) (h2 : 8 ≤ r2.toNat) :
    execAlu o r1 r2 s = .next (s.raise .invalidRegister r2.toNat) :=
  (withRegister_valid h1).trans (withRegister_invalid h2)

/-- Every handler with register operands checks the first of them before anything else. -/
theorem exec_of_invalid_first {i : Instr} {r : Byte} {rs : List Byte} (h : i.regOperands = r :: rs) (hr : 8 ≤ r.toNat)
    (s : State) : exec i s = .next (s.raise .invalidRegister r.toNat) := by
  cases i with
  | hlt | ret => cases h
  | push | pop | prn | call | ldi => cases h; unfold exec; exact withRegister_invalid hr
  | add | mul => cases h; unfold exec; exact execAlu_of_invalid_first _ _ s hr

/-- Settles O39: the bad byte is the first operand of each listed instruction, and in the last two the second one after
a valid first. -/
theorem invalidRegisterIsRejected : Obligations.InvalidRegisterIsRejected := by
  intro s r b hr
  refine ⟨fun i hi => ?first, fun hb i hi => ?second⟩
  case first =>
    have hfirst : ∃ rs, i.regOperands = r :: rs := by
      simp only [List.mem_cons, List.not_mem_nil, or_false] at hi
      rcases hi with rfl | rfl | rfl | rfl | rfl | rfl | rfl <;> exact ⟨_, rfl⟩
    obtain ⟨rs, hoperands⟩ := hfirst
    exact ⟨_, exec_of_invalid_first hoperands hr s, s.faults_raise _ _⟩
  case second =>
    simp only [List.mem_cons, List.not_mem_nil, or_false] at hi
    obtain rfl | rfl := hi
    · exact ⟨_, execAlu_of_invalid_second .add s hb hr, s.faults_raise _ _⟩
    · exact ⟨_, execAlu_of_invalid_second .mul s hb hr, s.faults_raise _ _⟩

theorem execPush_of_wrap {r : Byte} {s : State} (hr : r.toNat < 8) (policy : s.spWrapPolicy = .fault)
    (wraps : s.decWraps = true) : execPush r s = .next (s.raise .stackWrap s.sp.toNat) :=
  (withRegister_valid hr).trans (guardWrap_raise policy wraps)

theorem execPop_of_wrap {r : Byte} {s : State} (hr : r.toNat < 8) (policy : s.spWrapPolicy = .fault)
    (wraps : (s.writeReg ⟨r.toNat, hr⟩ (s.loadByte s.sp)).incWraps = true) :
    execPop r s = .next (s.raise .stackWrap s.sp.toNat) :=
  (withRegister_valid hr).trans (guardWrap_raise policy wraps)

theorem execCall_of_top {r : Byte} {s : State} (hr : r.toNat < 8) (top : Config.memSize ≤ s.returnAddress) :
    execCall r s = .next (s.raise .addressOutOfRange s.returnAddress) :=
  (withRegister_valid hr).trans (if_pos top)

theorem execCall_of_wrap {r : Byte} {s : State} (hr : r.toNat < 8) (below : s.returnAddress < Config.memSize)
    (policy : s.spWrapPolicy = .fault) (wraps : s.decWraps = true) :
    execCall r s = .next (s.raise .stackWrap s.sp.toNat) :=
  ((withRegister_valid hr).trans (if_neg (Nat.not_le.mpr below))).trans (guardWrap_raise policy wraps)

theorem execRet_of_wrap {s : State} (policy : s.spWrapPolicy = .fault) (wraps : s.incWraps = true) :
    execRet s = .next (s.raise .stackWrap s.sp.toNat) :=
  guardWrap_raise policy wraps

/-- Settles O40: the check of the return address comes right after that of the register. -/
theorem callAtTheTopFaults : Obligations.CallAtTheTopFaults :=
  fun s _ hr top => ⟨_, execCall_of_top hr top, s.faults_raise _ _⟩

/-- Settles O41: each clause meets the guard of its instruction, with the SP the record holds. -/
theorem stackWrapFaultsUnderTheFaultPolicy : Obligations.StackWrapFaultsUnderTheFaultPolicy := by
  refine fun s policy => ⟨fun hsp r hr => ?lowest, fun hsp => ⟨?ret, fun r hr => ?pop⟩, fun hloaded => ?popR7⟩
  case lowest =>
    have hwraps : s.decWraps = true := beq_iff_eq.mpr hsp
    have hfaults : Faults .stackWrap 0 s (s.raise .stackWrap s.sp.toNat) := hsp ▸ s.faults_raise .stackWrap _
    exact ⟨⟨_, execPush_of_wrap hr policy hwraps, hfaults⟩,
      fun below => ⟨_, execCall_of_wrap hr below policy hwraps, hfaults⟩⟩
  case ret => exact ⟨_, execRet_of_wrap policy (beq_iff_eq.mpr hsp), hsp ▸ s.faults_raise .stackWrap _⟩
  case pop =>
    have hr8 : r.toNat < 8 := Nat.lt_succ_of_lt hr
    have hne : r ≠ 7#8 := by rintro rfl; exact absurd hr (by decide)
    have hwraps : (s.writeReg ⟨r.toNat, hr8⟩ (s.loadByte s.sp)).incWraps = true :=
      beq_iff_eq.mpr ((s.sp_writeReg_operand hr8 _).trans ((if_neg hne).trans hsp))
    exact ⟨_, execPop_of_wrap hr8 policy hwraps, hsp ▸ s.faults_raise .stackWrap _⟩
  case popR7 =>
    have hr8 : (7#8 : Byte).toNat < 8 := by decide
    have hwraps : (s.writeReg ⟨(7#8 : Byte).toNat, hr8⟩ (s.loadByte s.sp)).incWraps = true :=
      beq_iff_eq.mpr ((s.sp_writeReg_operand hr8 _).trans ((if_pos rfl).trans hloaded))
    exact ⟨_, execPop_of_wrap hr8 policy hwraps, s.faults_raise _ _⟩

/-! ### What an instruction can end in, it does -/

/-- The converse of `exec_next` for valid register operands: the guards of `Executes` exclude one another. -/
theorem Executes.exec_eq {i : Instr} {s t : State} (h : Executes s i t) (wf : i.wellFormed = true) :
    exec i s = .next t := by
  cases h with
  | invalidRegister operand invalid =>
    exact absurd (of_decide_eq_true (List.all_eq_true.mp wf _ operand)) (Nat.not_lt.mpr invalid)
  | callOutOfRange valid top => exact execCall_of_top valid top
  | pushWraps valid policy wraps => exact execPush_of_wrap valid policy wraps
  | popWraps valid policy wraps => exact execPop_of_wrap valid policy wraps
  | callWraps valid below policy wraps => exact execCall_of_wrap valid below policy wraps
  | retWraps policy wraps => exact execRet_of_wrap policy wraps
  | hlt => rfl
  | prn valid => exact execPrn_valid valid
  | ldi valid => exact execLdi_valid valid
  | add valid1 valid2 => exact execAdd_valid valid1 valid2
  | mul valid1 valid2 => exact execMul_valid valid1 valid2
  | push valid noWrap => exact execPush_of_noWrap valid noWrap
  | pop valid noWrap => exact execPop_of_noWrap valid noWrap
  | call valid below noWrap => exact execCall_of_noWrap valid below noWrap
  | ret noWrap => exact execRet_of_noWrap noWrap

/-- An instruction with an invalid register operand raises the same fault from every state. -/
theorem exec_of_not_wellFormed {i : Instr} (h : i.wellFormed = false) :
    ∃ info, ∀ s, exec i s = .next (s.raise .invalidRegister info) := by
  cases i with
  | hlt | ret => cases h
  | push r | pop r | prn r | call r | ldi r =>
    have hr : 8 ≤ r.toNat := by simpa [Instr.wellFormed, Instr.regOperands, validRegister] using h
    exact ⟨r.toNat, exec_of_invalid_first rfl hr⟩
  | add r1 r2 | mul r1 r2 =>
    by_cases h1 : r1.toNat < 8
    · have h2 : 8 ≤ r2.toNat := by simpa [Instr.wellFormed, Instr.regOperands, validRegister, h1] using h
      unfold exec
      exact ⟨r2.toNat, fun s => execAlu_of_invalid_second _ s h1 h2⟩
    · exact ⟨r1.toNat, exec_of_invalid_first rfl (Nat.not_lt.mp h1)⟩

end Sys2Proof.Machine

/-! ## Completed stack instructions, read back from their end (R171, R172, R190, R191) -/

namespace Sys2Proof.Machine

theorem Executes.push_completed {r : Byte} {s t : State} (h : Executes s (.push r) t) (ok : t.notFaulted = true) :
    ∃ hr : r.toNat < 8, t = (s.decSp.storeByte s.decSp.sp (s.decSp.readReg ⟨r.toNat, hr⟩)).advancePc .push := by
  cases h with
  | invalidRegister | pushWraps => simp at ok
  | push hr => exact ⟨hr, rfl⟩

theorem Executes.pop_completed {r : Byte} {s t : State} (h : Executes s (.pop r) t) (ok : t.notFaulted = true) :
    ∃ hr : r.toNat < 8, t = (s.writeReg ⟨r.toNat, hr⟩ (s.loadByte s.sp)).incSp.advancePc .pop := by
  cases h with
  | invalidRegister | popWraps => simp at ok
  | pop hr => exact ⟨hr, rfl⟩

theorem Executes.call_completed {r : Byte} {s t : State} (h : Executes s (.call r) t) (ok : t.notFaulted = true) :
    ∃ hr : r.toNat < 8, s.pc.toNat + 2 < 256 ∧
      t = ((s.decSp.storeByte s.decSp.sp (BitVec.ofNat 8 s.returnAddress)).setPc
        ((s.decSp.readReg ⟨r.toNat, hr⟩).setWidth 9)).advancePc .call := by
  cases h with
  | invalidRegister | callOutOfRange | callWraps => simp at ok
  | call hr below => exact ⟨hr, below, rfl⟩

theorem Executes.ret_completed {s t : State} (h : Executes s .ret t) (ok : t.notFaulted = true) :
    t = (s.setPc ((s.loadByte s.sp).setWidth 9)).incSp.advancePc .ret := by
  cases h with
  | invalidRegister | retWraps => simp at ok
  | ret => rfl

theorem State.notFaulted_of_running {s : State} (h : s.runState = .running) : s.notFaulted = true := by
  rw [State.notFaulted, h]

/-! ### SP after each kind of instruction (R174) -/

theorem Executes.sp_of_pushes {i : Instr} {s t : State} (h : Executes s i t) (ok : t.notFaulted = true)
    (hi : i.pushes = true) : t.sp = s.sp - 1#8 := by
  cases i with
  | push r => obtain ⟨hr, rfl⟩ := h.push_completed ok; simp
  | call r => obtain ⟨hr, -, rfl⟩ := h.call_completed ok; simp
  | _ => cases hi

theorem Executes.sp_of_pops {i : Instr} {s t : State} (h : Executes s i t) (ok : t.notFaulted = true)
    (hi : i.pops = true) (nr7 : i.writesR7 = false) : t.sp = s.sp + 1#8 := by
  cases i with
  | pop r =>
    obtain ⟨hr, rfl⟩ := h.pop_completed ok
    rw [State.sp_advancePc, State.sp_incSp, State.sp_writeReg_operand, if_neg (beq_eq_false_iff_ne.mp nr7)]
  | ret => obtain rfl := h.ret_completed ok; simp
  | _ => cases hi

theorem Executes.sp_of_other {i : Instr} {s t : State} (h : Executes s i t) (npush : i.pushes = false)
    (npop : i.pops = false) (nr7 : i.writesR7 = false) : t.sp = s.sp := by
  cases h with
  | push | call => cases npush
  | pop | ret => cases npop
  | invalidRegister | callOutOfRange | pushWraps | popWraps | callWraps | retWraps | hlt | prn => rfl
  | ldi | add | mul =>
    rw [State.sp_advancePc, State.sp_writeReg_operand, if_neg (beq_eq_false_iff_ne.mp nr7)]

/-- PUSH R7 stores the lowered SP, and POP R7 loads it and raises it again (D9). -/
theorem sp_of_push_pop_r7 {s t u : State} (hpush : Executes s (.push 7#8) t) (okt : t.notFaulted = true)
    (hpop : Executes t (.pop 7#8) u) (oku : u.notFaulted = true) : u.sp = s.sp := by
  obtain ⟨h7, rfl⟩ := hpush.push_completed okt
  obtain ⟨-, rfl⟩ := hpop.pop_completed oku
  rw [State.sp_advancePc, State.sp_incSp, State.sp_writeReg_operand, if_pos rfl, State.loadByte]
  simp [State.readReg_decSp]

/-! ### Runs through balanced sequences -/

theorem runsThrough_append {is js : List Instr} {s t : State} :
    RunsThrough (is ++ js) s t ↔ ∃ u, RunsThrough is s u ∧ RunsThrough js u t := by
  induction is generalizing s with
  | nil => simp [RunsThrough]
  | cons i is ih =>
    simp only [List.cons_append, RunsThrough, ih]
    constructor
    · rintro ⟨rest, v, hf, hstep, ok, u, hv, hu⟩
      exact ⟨u, ⟨rest, v, hf, hstep, ok, hv⟩, hu⟩
    · rintro ⟨u, ⟨rest, v, hf, hstep, ok, hv⟩, hu⟩
      exact ⟨rest, v, hf, hstep, ok, u, hv, hu⟩

/-- The first step of a run through a list executes its first instruction, without a fault. -/
theorem runsThrough_cons {i : Instr} {is : List Instr} {s t : State} (h : RunsThrough (i :: is) s t) :
    ∃ u, Executes s i u ∧ u.notFaulted = true ∧ RunsThrough is u t := by
  obtain ⟨rest, u, hf, hstep, ok, hrest⟩ := h
  exact ⟨u, step_executes_of_fetched hf hstep, ok, hrest⟩

theorem runsThrough_singleton {i : Instr} {s t : State} (h : RunsThrough [i] s t) :
    Executes s i t ∧ t.notFaulted = true := by
  obtain ⟨u, he, ok, rfl⟩ := runsThrough_cons h
  exact ⟨he, ok⟩

/-- Settles O45, by induction on how the sequence is balanced. -/
theorem balancedRunRestoresTheStackPointer : Obligations.BalancedRunRestoresTheStackPointer := by
  intro is s t hbal hrun
  induction hbal generalizing s t with
  | nil => rw [hrun]
  | other npush npop nr7 =>
    obtain ⟨he, -⟩ := runsThrough_singleton hrun
    exact he.sp_of_other npush npop nr7
  | pair ipush jpop nr7 _ ih =>
    obtain ⟨v, hbody, hlast⟩ := runsThrough_append.mp hrun
    obtain ⟨u, hfirst, oku, hinner⟩ := runsThrough_cons hbody
    obtain ⟨hpop, okt⟩ := runsThrough_singleton hlast
    calc t.sp = v.sp + 1#8 := hpop.sp_of_pops okt jpop nr7
      _ = u.sp + 1#8 := by rw [ih u v hinner]
      _ = s.sp - 1#8 + 1#8 := by rw [hfirst.sp_of_pushes oku ipush]
      _ = s.sp := BitVec.sub_add_cancel s.sp 1#8
  | pairR7 =>
    obtain ⟨u, hpush, oku, hlast⟩ := runsThrough_cons hrun
    obtain ⟨hpop, okt⟩ := runsThrough_singleton hlast
    exact sp_of_push_pop_r7 hpush oku hpop okt
  | append _ _ ihleft ihright =>
    obtain ⟨u, hleft, hright⟩ := runsThrough_append.mp hrun
    rw [ihright u t hright, ihleft s u hleft]

/-- Settles O46: RET loads the return address CALL stored, raises the SP CALL lowered, and neither writes another
register. -/
theorem callThenRetReturns : Obligations.CallThenRetReturns := by
  intro s u r hrun
  obtain ⟨t, hcall, okt, hlast⟩ := runsThrough_cons hrun
  obtain ⟨hret, oku⟩ := runsThrough_singleton hlast
  have hsp : u.sp = s.sp := by
    rw [hret.sp_of_pops oku rfl rfl, hcall.sp_of_pushes okt rfl, BitVec.sub_add_cancel]
  obtain ⟨hr, below, rfl⟩ := hcall.call_completed okt
  obtain rfl := hret.ret_completed oku
  refine ⟨?pc, hsp, fun j _ => ?regs⟩
  case pc =>
    refine (toNat_setWidth_nine _).trans ((congrArg BitVec.toNat ?_).trans (toNat_returnAddress below))
    exact Memory.get_set_same ..
  case regs =>
    by_cases h7 : j = 7
    · rw [h7]; exact hsp
    · simp [State.readReg_incSp, State.readReg_decSp, h7]

/-- Settles O44: the state PUSH leaves meets what POP needs, and POP loads what PUSH stored. -/
theorem pushThenPopRestoresTheRegisters : Obligations.PushThenPopRestoresTheRegisters := by
  intro s r hr hwrap
  obtain ⟨t, hpush, -, hsp, hregs, hstored, hmem, -, -, -, hpolicy⟩ := pushStoresBelowTheStackPointer s r hr hwrap
  have hloaded : t.mem.get t.sp.toNat = if r = 7#8 then s.pushAddress else s.readReg ⟨r.toNat, hr⟩ := by
    rw [hsp, hstored]
  have hpopWrap : t.spWrapPolicy = .fault → (if r = 7#8 then t.mem.get t.sp.toNat else t.sp) ≠ 0xFF#8 := by
    have hboth : (if r = 7#8 then t.mem.get t.sp.toNat else t.sp) = s.sp - 1#8 := by
      rw [hloaded, hsp, s.pushAddress_eq]; split <;> rfl
    intro hfault
    have := hwrap (hpolicy ▸ hfault)
    rw [hboth]; bv_omega
  obtain ⟨u, hpop, hother, hseven, hframe, hmem', -⟩ := popLoadsFromTheStackPointer t r hr hpopWrap
  have husp : u.sp = s.sp := by
    have haddr := s.toNat_pushAddress
    have hrange := s.sp.isLt
    refine BitVec.eq_of_toNat_eq ?_
    by_cases h7 : r = 7#8
    · rw [hseven h7, hloaded, if_pos h7]; omega
    · rw [(hother h7).2, hsp]; omega
  refine ⟨t, u, hpush, hpop, fun j _ => ?_, fun a ha => (hmem' a).trans (hmem a ha)⟩
  by_cases hj : j = 7
  · rw [hj]; exact husp
  · by_cases hjr : j = ⟨r.toNat, hr⟩
    · have hne : r ≠ 7#8 := by rintro rfl; exact hj hjr
      rw [hjr, (hother hne).1, hloaded, if_neg hne]
    · rw [hframe j (by simp [hj, hjr]), hregs j (by simp [hj])]

/-! ### A stored byte is fetched (R60) -/

/-- The byte just written at `pc` is the next opcode. -/
theorem State.fetchBytes_head_of_set {s t : State} {a v : Byte} (hpc : t.pc.toNat = a.toNat)
    (hmem : t.mem = s.mem.set a.toNat v) : t.fetchBytes.head? = some v := by
  rw [State.fetchBytes_head (hpc ▸ a.isLt), hpc, hmem, Memory.get_set_same]

/-- Settles O47: what PUSH or CALL writes at `s.pushAddress` is read there by the next fetch. -/
theorem storedByteIsFetchedNext : Obligations.StoredByteIsFetchedNext := by
  refine fun s t r hr => ⟨fun h running hpc => ?push, fun h running hpc => ?call⟩
  case push =>
    obtain ⟨_, rfl⟩ := (exec_next h).push_completed (State.notFaulted_of_running running)
    exact State.fetchBytes_head_of_set hpc (State.advancePc_mem _ _)
  case call =>
    obtain ⟨_, _, rfl⟩ := (exec_next h).call_completed (State.notFaulted_of_running running)
    exact State.fetchBytes_head_of_set hpc (State.advancePc_mem _ _)

/-! ## What a step does not depend on -/

/-- A change of the state that keeps what the fetch reads and commutes with `raise` carries a step over, if it carries
over what executing the fetched instruction ends in. -/
theorem step_transfer {f : State → State} {s t : State} (hmem : (f s).mem = s.mem) (hpc : (f s).pc = s.pc)
    (hrun : (f s).runState = s.runState) (hraise : ∀ kind info, f (s.raise kind info) = (f s).raise kind info)
    (hexec : ∀ i, Executes s i t → Executes (f s) i (f t)) (h : step s = .next t) : step (f s) = .next (f t) := by
  obtain ⟨running, -⟩ := step_next h
  have hfetched : (f s).fetched = s.fetched := by rw [State.fetched, State.fetchBytes_congr hmem hpc, State.fetched]
  cases hf : s.fetched with
  | error e =>
    rw [step_of_fetch_error running hf] at h
    cases h
    rw [step_of_fetch_error (hrun.trans running) (hfetched.trans hf)]
    cases e <;> simp only [State.raiseDecode, hraise, hpc]
  | ok i rest =>
    rw [step_of_fetched running hf] at h
    rw [step_of_fetched (hrun.trans running) (hfetched.trans hf)]
    by_cases wf : i.wellFormed = true
    · exact (hexec i (exec_next h)).exec_eq wf
    · obtain ⟨info, hrejects⟩ := exec_of_not_wellFormed (Bool.eq_false_iff.mpr wf)
      rw [hrejects] at h ⊢
      cases h
      rw [hraise]

/-- The same state with other output before its own. -/
def State.withEarlierOut (earlier : List Byte) (s : State) : State := { s with out := earlier ++ s.out }

/-- No handler reads `out`, and PRN appends at its end. -/
theorem Executes.withEarlierOut {i : Instr} {s t : State} (earlier : List Byte) (h : Executes s i t) :
    Executes (s.withEarlierOut earlier) i (t.withEarlierOut earlier) := by
  cases h with
  | invalidRegister operand invalid => exact .invalidRegister operand invalid
  | callOutOfRange valid top => exact .callOutOfRange valid top
  | pushWraps valid policy wraps => exact .pushWraps valid policy wraps
  | popWraps valid policy wraps => exact .popWraps valid policy wraps
  | callWraps valid below policy wraps => exact .callWraps valid below policy wraps
  | retWraps policy wraps => exact .retWraps policy wraps
  | hlt => exact .hlt
  | @prn r valid =>
    have hout : earlier ++ (s.out ++ [s.readReg ⟨r.toNat, valid⟩]) =
        (s.withEarlierOut earlier).out ++ [(s.withEarlierOut earlier).readReg ⟨r.toNat, valid⟩] :=
      (List.append_assoc ..).symm
    have hprn := Executes.prn (s := s.withEarlierOut earlier) valid
    rw [State.emit, ← hout] at hprn
    exact hprn
  | ldi valid => exact .ldi valid
  | add valid1 valid2 => exact .add valid1 valid2
  | mul valid1 valid2 => exact .mul valid1 valid2
  | push valid noWrap => exact .push valid noWrap
  | pop valid noWrap => exact .pop valid noWrap
  | call valid below noWrap => exact .call valid below noWrap
  | ret noWrap => exact .ret noWrap

/-- Settles O52: fetch and faults do not look at `out`, and no handler does. -/
theorem outputIsNeverRead : Obligations.OutputIsNeverRead :=
  fun _ _ earlier h => step_transfer (f := State.withEarlierOut earlier) rfl rfl rfl (fun _ _ => rfl)
    (fun _ he => he.withEarlierOut earlier) h

/-- The same state under the hardware's policy. -/
def State.underWrap (s : State) : State := { s with spWrapPolicy := .wrap }

/-- But for the StackWrap fault, every end under any policy is one under the hardware's, whose guard always passes. -/
theorem Executes.underWrap {i : Instr} {s t : State} (h : Executes s i t)
    (nowrap : t ≠ s.raise .stackWrap s.sp.toNat) : Executes s.underWrap i t.underWrap := by
  cases h with
  | pushWraps | popWraps | callWraps | retWraps => exact absurd rfl nowrap
  | invalidRegister operand invalid => exact .invalidRegister operand invalid
  | callOutOfRange valid top => exact .callOutOfRange valid top
  | hlt => exact .hlt
  | prn valid => exact .prn valid
  | ldi valid => exact .ldi valid
  | add valid1 valid2 => exact .add valid1 valid2
  | mul valid1 valid2 => exact .mul valid1 valid2
  | push valid => exact .push valid (noWrap_of_wrapPolicy rfl _)
  | pop valid => exact .pop valid (noWrap_of_wrapPolicy rfl _)
  | call valid below => exact .call valid below (noWrap_of_wrapPolicy rfl _)
  | ret => exact .ret (noWrap_of_wrapPolicy rfl _)

/-- Settles O42: a step that does not end in the StackWrap fault is the same under the hardware's policy. -/
theorem faultPolicyRefinesWrapPolicy : Obligations.FaultPolicyRefinesWrapPolicy := by
  intro s t _ h
  by_cases hwrap : t = s.raise .stackWrap s.sp.toNat
  · exact .inl (hwrap ▸ s.faults_raise _ _)
  · exact .inr (step_transfer (f := State.underWrap) rfl rfl rfl (fun _ _ => rfl) (fun _ he => he.underWrap hwrap) h)

/-! ## Reset, load and run (R217, R240, R248, R249) -/

/-- The copy of bytes leaves the addresses past it alone. -/
theorem Memory.get_storeFrom_above (m : Memory) (a : Nat) (bytes : List Byte) {a' : Nat} (h : a + bytes.length ≤ a') :
    (m.storeFrom a bytes).get a' = m.get a' := by
  induction bytes generalizing m a with
  | nil => rfl
  | cons v vs ih =>
    rw [List.length_cons] at h
    rw [Memory.storeFrom, ih _ _ (by omega), Memory.get_set_other _ _ (by omega)]

theorem load_fresh {image : List Byte} {c : CoreInstance} (hphase : c.phase = .fresh)
    (hlen : image.length ≤ Config.maxImage) : load image c = .next { c with core := c.core.withImage image } := by
  simp only [load, hphase, if_pos hlen]

/-- Settles O48: the load copies the image into the empty memory of the reset state and writes nothing else. -/
theorem resetAndLoadGiveTheStartState : Obligations.ResetAndLoadGiveTheStartState := by
  intro regInit policy image hlen
  refine ⟨_, load_fresh rfl hlen, fun k hk => ?image, fun k hk => ?above, fun j => ?regs, ?sp, rfl, rfl, rfl, rfl,
    State.fetchBytes_head (Nat.zero_lt_succ 255)⟩
  case image =>
    have hget := Memory.get_storeFrom [] 0 image hk
    rwa [Nat.zero_add] at hget
  case above => exact Memory.get_storeFrom_above [] 0 image (by omega)
  case regs => exact Vector.getElem_push_lt j.isLt
  case sp => exact Vector.getElem_push_eq

/-- Settles O49: the phase is looked at first, then the length. -/
theorem loaderRefusesLongAndLateImages : Obligations.LoaderRefusesLongAndLateImages := by
  refine fun image c => ⟨fun fresh long => ?_, fun _ => rfl⟩
  simp only [load, fresh, if_neg (Nat.not_le.mpr long)]

/-- Settles O50: the first step finds 0x00 at address 0 of the empty memory, and a FAULTED machine goes no further. -/
theorem emptyImageFaultsAtOnce : Obligations.EmptyImageFaultsAtOnce := by
  intro regInit policy fuel hfuel
  obtain ⟨fuel, rfl⟩ := Nat.exists_eq_add_one.mpr hfuel
  obtain ⟨t, hstep, hfaults⟩ :=
    runningIntoZeroFaults (State.resetWith regInit policy) rfl (Nat.zero_lt_succ 255) rfl
  have hend : runSteps (fuel + 1) (State.resetWith regInit policy) = t := by
    rw [runSteps_succ_of_step hstep, runSteps_of_faulted hfaults.1]
  change Faults _ _ _ (runSteps (fuel + 1) (State.resetWith regInit policy))
  rwa [hend]

end Sys2Proof.Machine

/-! ## Digits (R221, R226) -/

namespace Sys2Proof.Machine

theorem toNat_decimalDigit {n : Nat} (h : n < 10) : (decimalDigit n).toNat = 48 + n := by
  revert n; decide

theorem digitValue_decimalDigit {n : Nat} (h : n < 10) : digitValue (decimalDigit n) = some n := by
  revert n; decide

/-- The digits of a byte by its size. -/
theorem decimalByte_cases (b : Byte) :
    (b.toNat < 10 ∧ decimalByte b = [decimalDigit b.toNat]) ∨
    (10 ≤ b.toNat ∧ b.toNat < 100 ∧ decimalByte b = [decimalDigit (b.toNat / 10), decimalDigit (b.toNat % 10)]) ∨
    (100 ≤ b.toNat ∧ decimalByte b =
      [decimalDigit (b.toNat / 100), decimalDigit (b.toNat / 10 % 10), decimalDigit (b.toNat % 10)]) := by
  unfold decimalByte
  by_cases h10 : b.toNat < 10
  · exact .inl ⟨h10, if_pos h10⟩
  · by_cases h100 : b.toNat < 100
    · exact .inr (.inl ⟨by omega, h100, by simp only [if_neg h10, if_pos h100]⟩)
    · exact .inr (.inr ⟨by omega, by simp only [if_neg h10, if_neg h100]⟩)

/-- A decimal digit is `0` only for zero. -/
theorem decimalDigit_ne_zero {n : Nat} (h : n < 10) (hpos : 0 < n) : decimalDigit n ≠ '0' := fun h0 => by
  have := congrArg Char.toNat h0
  rw [toNat_decimalDigit h, show '0'.toNat = 48 from rfl] at this
  omega

theorem decimalByte_value (b : Byte) :
    (decimalByte b).foldl (fun n c => 10 * n + (c.toNat - 48)) 0 = b.toNat := by
  have hbyte := b.isLt
  obtain ⟨h, hb⟩ | ⟨h, h', hb⟩ | ⟨h, hb⟩ := decimalByte_cases b
  all_goals
    rw [hb]
    simp (disch := omega) only [List.foldl_cons, List.foldl_nil, toNat_decimalDigit]
    omega

theorem decimalByte_digits (b : Byte) : ∀ c ∈ decimalByte b, ∃ n < 10, c = decimalDigit n := by
  have hbyte := b.isLt
  obtain ⟨h, hb⟩ | ⟨h, h', hb⟩ | ⟨h, hb⟩ := decimalByte_cases b
  all_goals
    rw [hb]
    simp only [List.forall_mem_cons]
  · exact ⟨⟨_, h, rfl⟩, nofun⟩
  · exact ⟨⟨_, by omega, rfl⟩, ⟨_, by omega, rfl⟩, nofun⟩
  · exact ⟨⟨_, by omega, rfl⟩, ⟨_, by omega, rfl⟩, ⟨_, by omega, rfl⟩, nofun⟩

theorem decimalByte_range (b : Byte) : ∀ c ∈ decimalByte b, 48 ≤ c.toNat ∧ c.toNat ≤ 57 := by
  intro c hc
  obtain ⟨n, hn, rfl⟩ := decimalByte_digits b c hc
  rw [toNat_decimalDigit hn]
  omega

theorem decimalByte_ne_nil (b : Byte) : decimalByte b ≠ [] := by
  obtain ⟨-, hb⟩ | ⟨-, -, hb⟩ | ⟨-, hb⟩ := decimalByte_cases b <;> simp [hb]

/-- Of the numerals the bytes have, only that of 0 begins with `0`. -/
theorem decimalByte_no_leading_zero (b : Byte) (h0 : (decimalByte b).head? = some '0') : decimalByte b = ['0'] := by
  have hbyte := b.isLt
  obtain ⟨-, hb⟩ | ⟨h, h', hb⟩ | ⟨h, hb⟩ := decimalByte_cases b
  all_goals
    rw [hb, List.head?_cons, Option.some_inj] at h0
  · rw [hb, h0]
  · exact absurd h0 (decimalDigit_ne_zero (by omega) (by omega))
  · exact absurd h0 (decimalDigit_ne_zero (by omega) (by omega))

/-- Settles O53: the text is made line by line, and the line of a byte by its number of digits. -/
theorem outputLinesAreDecimal : Obligations.OutputLinesAreDecimal := by
  refine ⟨rfl, fun out b => ?_, fun b =>
    ⟨decimalByte_value b, decimalByte_range b, decimalByte_ne_nil b, decimalByte_no_leading_zero b⟩⟩
  rw [outputText, List.flatMap_append, List.flatMap_singleton, outputLine, List.append_assoc, outputText]

/-! ## The trace (R226) -/

/-- The sixteen hexadecimal digits in order. -/
theorem hexDigit_listed {n : Nat} (h : n < 16) :
    ['0', '1', '2', '3', '4', '5', '6', '7', '8', '9', 'A', 'B', 'C', 'D', 'E', 'F'][n]? = some (hexDigit n) := by
  revert n; decide

theorem traceRun_of_step {s t : State} (h : step s = .next t) (fuel : Nat) :
    traceRun (fuel + 1) s = s.traceRecord :: traceRun fuel t := by
  rw [traceRun, h]

theorem traceRun_of_no_step {s : State} (h : ¬ ∃ t, step s = .next t) (fuel : Nat) : traceRun fuel s = [] := by
  cases fuel with
  | zero => rfl
  | succ fuel =>
    rw [traceRun]
    split
    · next t hstep => exact absurd ⟨t, hstep⟩ h
    · rfl
    · rfl

theorem State.traceRecord_bytes (s : State) (k : Fin 3) : s.traceRecord.bytes[k] = s.mem.read (s.pc.toNat + k.val) := by
  match k with
  | 0 | 1 | 2 => rfl

theorem tracePc_below {pc : PcWord} (h : pc.toNat < 256) : tracePc pc = hexByte (BitVec.ofNat 8 pc.toNat) := by
  rw [tracePc, if_pos h, BitVec.ofNat_toNat]

/-- Settles O54: the run records a state exactly when it has a step, the record reads memory with the range check, and
the line is the items' own texts. -/
theorem traceShowsTheStateBeforeTheStep : Obligations.TraceShowsTheStateBeforeTheStep := by
  refine ⟨fun fuel s => ⟨rfl, fun t h => traceRun_of_step h fuel, fun h => ?stopped⟩,
    fun s => ⟨rfl, rfl, s.traceRecord_bytes⟩,
    fun r => ⟨rfl, fun _ _ => List.flatMap_cons⟩,
    fun r => ⟨fun _ => rfl, tracePc_below, fun h => ?top, fun k b h => ?byte, fun k h => ?missing, fun _ => rfl⟩,
    fun b => ⟨_, _, rfl, hexDigit_listed ?high, hexDigit_listed ?low⟩⟩
  case stopped => exact traceRun_of_no_step (mt (step_exists_iff_running s).mp h) fuel
  case top => rw [TraceRecord.item, h]; rfl
  case byte => rw [TraceRecord.item, h, traceByte]
  case missing => rw [TraceRecord.item, h, traceByte]
  case high => have := b.isLt; omega
  case low => omega

/-! ## The assembler spelling (R83) -/

/-! ### Numerals and registers -/

/-- Decimal digits never spell the `0x` or `0b` of another base. -/
theorem readNumber_decimalByte (b : Byte) : readNumber (decimalByte b) = readDigits 10 (decimalByte b) := by
  have hrange := decimalByte_range b
  unfold readNumber
  split
  · next cs hcs => rw [hcs] at hrange; exact absurd (hrange 'x' (by simp)) (by decide)
  · next cs hcs => rw [hcs] at hrange; exact absurd (hrange 'b' (by simp)) (by decide)
  · rfl

theorem readDigitsFrom_decimalDigit {n d : Nat} (h : d < 10) (cs : List Char) :
    readDigitsFrom 10 n (decimalDigit d :: cs) = readDigitsFrom 10 (10 * n + d) cs := by
  simp only [readDigitsFrom, digitValue_decimalDigit h, if_pos h]

theorem readDigitsFrom_nil (base n : Nat) : readDigitsFrom base n [] = some n := rfl

theorem readDigits_decimalByte (b : Byte) : readDigits 10 (decimalByte b) = some b.toNat := by
  have hbyte := b.isLt
  obtain ⟨h, hb⟩ | ⟨h, h', hb⟩ | ⟨h, hb⟩ := decimalByte_cases b
  all_goals
    rw [hb]
    simp (disch := omega) only [readDigits, readDigitsFrom_decimalDigit, readDigitsFrom_nil]
    congr 1
    omega

theorem readImmediate_decimalByte (b : Byte) : readImmediate (decimalByte b) = some b := by
  simp only [readImmediate, readNumber_decimalByte, readDigits_decimalByte, if_pos b.isLt, BitVec.ofNat_toNat,
    BitVec.setWidth_eq]

theorem registerText_eq {r : Byte} (h : r.toNat < 8) : registerText r = ['R', decimalDigit r.toNat] := by
  rw [registerText, decimalByte]
  exact congrArg _ (if_pos (by omega))

theorem readRegister_registerText {r : Byte} (h : r.toNat < 8) : readRegister (registerText r) = some r := by
  rw [registerText_eq h]
  simp only [readRegister, digitValue_decimalDigit (show r.toNat < 10 by omega), if_pos h, BitVec.ofNat_toNat,
    BitVec.setWidth_eq]

/-! ### Commas -/

theorem splitCommas_cons {c : Char} {w cs : List Char} {ws : List (List Char)} (hc : c ≠ ',')
    (h : splitCommas cs = w :: ws) : splitCommas (c :: cs) = (c :: w) :: ws := by
  simp only [splitCommas, if_neg hc, h]

theorem splitCommas_word {w : List Char} (h : ',' ∉ w) : splitCommas w = [w] := by
  induction w with
  | nil => rfl
  | cons c cs ih =>
    rw [List.mem_cons, not_or] at h
    exact splitCommas_cons (Ne.symm h.1) (ih h.2)

theorem splitCommas_word_comma {w : List Char} (cs : List Char) (h : ',' ∉ w) :
    splitCommas (w ++ ',' :: cs) = w :: splitCommas cs := by
  induction w with
  | nil => rfl
  | cons c w ih =>
    rw [List.mem_cons, not_or] at h
    exact splitCommas_cons (Ne.symm h.1) (ih h.2)

theorem comma_notMem_decimalByte (b : Byte) : ',' ∉ decimalByte b :=
  fun h => absurd (decimalByte_range b _ h) (by decide)

theorem comma_notMem_registerText (r : Byte) : ',' ∉ registerText r := by
  rw [registerText, List.mem_cons, not_or]
  exact ⟨by decide, comma_notMem_decimalByte r⟩

/-! ### Mnemonics -/

theorem find_mnemonic (o : Operation) : (Operation.all.find? fun p => mnemonic p == mnemonic o) = some o := by
  cases o <;> decide

theorem mnemonic_no_space (o : Operation) : ∀ c ∈ mnemonic o, (c != ' ') = true :=
  List.all_eq_true.mp (by cases o <;> decide)

/-- A line with operands is read by the operands of the operation its mnemonic names. -/
theorem assemble_operands (o : Operation) (cs : List Char) :
    assemble (mnemonic o ++ ' ' :: cs) = (readOperands o (splitCommas cs)).bind o.build := by
  have htake : (mnemonic o ++ ' ' :: cs).takeWhile (· != ' ') = mnemonic o := by
    rw [List.takeWhile_append_of_pos (mnemonic_no_space o), List.takeWhile_cons_of_neg (by decide), List.append_nil]
  have hdrop : (mnemonic o ++ ' ' :: cs).dropWhile (· != ' ') = ' ' :: cs := by
    rw [List.dropWhile_append_of_pos (mnemonic_no_space o), List.dropWhile_cons_of_neg (by decide)]
  simp only [assemble, htake, hdrop, find_mnemonic]

theorem assemble_one_register {o : Operation} {r : Byte} (hread : readRegister (registerText r) = some r)
    (ho : ∀ text, readOperands o [text] = (readRegister text).map fun r => [r]) :
    assemble (mnemonic o ++ ' ' :: registerText r) = o.build [r] := by
  rw [assemble_operands, splitCommas_word (comma_notMem_registerText r), ho, hread]
  rfl

theorem assemble_two_operands {o : Operation} (r : Byte) {text : List Char} {ops : List Byte} (hcomma : ',' ∉ text)
    (hread : readOperands o [registerText r, text] = some ops) :
    assemble (mnemonic o ++ ' ' :: registerText r ++ ',' :: text) = o.build ops := by
  rw [List.append_assoc, List.cons_append, assemble_operands, splitCommas_word_comma _ (comma_notMem_registerText r),
    splitCommas_word hcomma, hread]
  rfl

theorem readOperands_ldi {t1 t2 : List Char} {r imm : Byte} (h1 : readRegister t1 = some r)
    (h2 : readImmediate t2 = some imm) : readOperands .ldi [t1, t2] = some [r, imm] := by
  simp only [readOperands, h1, h2]

theorem readOperands_add {t1 t2 : List Char} {r1 r2 : Byte} (h1 : readRegister t1 = some r1)
    (h2 : readRegister t2 = some r2) : readOperands .add [t1, t2] = some [r1, r2] := by
  simp only [readOperands, h1, h2]

theorem readOperands_mul {t1 t2 : List Char} {r1 r2 : Byte} (h1 : readRegister t1 = some r1)
    (h2 : readRegister t2 = some r2) : readOperands .mul [t1, t2] = some [r1, r2] := by
  simp only [readOperands, h1, h2]

/-- Settles O55: the mnemonic names the operation, the comma parts the operands, and each operand reads back. -/
theorem assemblerSpellingReadsBack : Obligations.AssemblerSpellingReadsBack := by
  intro i wf
  have hread {r : Byte} (hr : r ∈ i.regOperands) : readRegister (registerText r) = some r :=
    readRegister_registerText (of_decide_eq_true (List.all_eq_true.mp wf r hr))
  cases i with
  | hlt | ret => decide
  | push r | pop r | prn r | call r => exact assemble_one_register (hread (List.mem_singleton_self r)) fun _ => rfl
  | ldi r imm =>
    have hoperands := readOperands_ldi (hread (List.mem_singleton_self r)) (readImmediate_decimalByte imm)
    exact assemble_two_operands r (comma_notMem_decimalByte imm) hoperands
  | add r1 r2 =>
    have hsecond : r2 ∈ (Instr.add r1 r2).regOperands := List.mem_cons_of_mem r1 (List.mem_singleton_self r2)
    have hoperands := readOperands_add (hread (List.mem_cons_self ..)) (hread hsecond)
    exact assemble_two_operands r1 (comma_notMem_registerText r2) hoperands
  | mul r1 r2 =>
    have hsecond : r2 ∈ (Instr.mul r1 r2).regOperands := List.mem_cons_of_mem r1 (List.mem_singleton_self r2)
    have hoperands := readOperands_mul (hread (List.mem_cons_self ..)) (hread hsecond)
    exact assemble_two_operands r1 (comma_notMem_registerText r2) hoperands

end Sys2Proof.Machine

/-! ## The step against its pseudocode (R109, R110) -/

namespace Sys2Proof.Machine

/-! ### The pseudocode's conditions as the decoder's classes -/

theorem Reference.mem_defined_iff {op : Byte} : op ∈ Reference.defined ↔ ∃ o, opcodes o = op := by
  constructor
  · intro h
    simp only [Reference.defined, List.mem_cons, List.not_mem_nil, or_false] at h
    obtain h | h | h | h | h | h | h | h | h := h
    exacts [⟨.hlt, h.symm⟩, ⟨.ret, h.symm⟩, ⟨.push, h.symm⟩, ⟨.pop, h.symm⟩, ⟨.prn, h.symm⟩, ⟨.call, h.symm⟩,
      ⟨.ldi, h.symm⟩, ⟨.add, h.symm⟩, ⟨.mul, h.symm⟩]
  · rintro ⟨o, rfl⟩
    cases o <;> decide

/-- Phase 2 rejects what has a count of 3 and the class of undefined opcodes without the ALU flag. -/
theorem Reference.unknown_iff {op : Byte} (h3 : operandCount op ≠ 3) :
    (op ∉ Reference.defined ∧ ¬ op.toNat / 32 % 2 = 1) ↔ classify op = .undefinedOther := by
  rw [Reference.mem_defined_iff, not_exists, ← aluFlag_iff_div_mod, Bool.not_eq_true]
  exact ⟨fun h => classifyWith_eq_undefinedOther_iff.mpr ⟨h3, h⟩, fun h => (classifyWith_eq_undefinedOther_iff.mp h).2⟩

/-- The first dispatch check rejects the class of undefined opcodes with the ALU flag. -/
theorem Reference.unsupported_iff {op : Byte} (h3 : operandCount op ≠ 3) :
    (op.toNat / 32 % 2 = 1 ∧ op ∉ [0xA0#8, 0xA2#8]) ↔ classify op = .undefinedAlu := by
  rw [← aluFlag_iff_div_mod]
  refine (and_congr_right fun halu => (undefined_iff_of_aluFlag halu).symm).trans ?_
  exact ⟨fun h => classifyWith_eq_undefinedAlu_iff.mpr ⟨h3, h.2, h.1⟩,
    fun h => (classifyWith_eq_undefinedAlu_iff.mp h).2.symm⟩

/-! ### Phases 1 to 3: the decode's faults -/

theorem Reference.step_past_the_top {s : State} (h : 256 ≤ s.pc.toNat) :
    Reference.step s = s.raise .addressOutOfRange s.pc.toNat := if_pos h

theorem Reference.step_of_unknown {s : State} (below : s.pc.toNat < 256)
    (h : classify (s.mem.get s.pc.toNat) = .countThree ∨ classify (s.mem.get s.pc.toNat) = .undefinedOther) :
    Reference.step s = s.raise .unknownInstruction (s.mem.get s.pc.toNat).toNat := by
  have hcount := operandCount_eq_div (s.mem.get s.pc.toNat)
  by_cases h3 : operandCount (s.mem.get s.pc.toNat) = 3
  · simp only [Reference.step, if_neg (Nat.not_le.mpr below), if_pos (hcount.symm.trans h3)]
  · have hother := h.resolve_left (mt classifyWith_eq_countThree_iff.mp h3)
    simp only [Reference.step, if_neg (Nat.not_le.mpr below), ← hcount, if_neg h3,
      if_pos ((Reference.unknown_iff h3).mpr hother)]

/-- The pseudocode's phases 4 to 6 after the dispatch checks: the handler, the advance, the halt. -/
def Reference.complete (op a b : Byte) (s : State) : State :=
  let s1 := Reference.handler op a b s
  let s2 := if op.toNat / 16 % 2 = 1 then s1 else s1.setPc (BitVec.ofNat 9 (s.pc.toNat + 1 + op.toNat / 64))
  if op = 0x01#8 then s2.halt else s2

/-- The pseudocode from the register checks on, for a defined opcode. -/
def Reference.dispatch (op a b : Byte) (s : State) : State :=
  if op ∉ [0x01#8, 0x11#8] ∧ a.toNat ≥ 8 then s.raise .invalidRegister a.toNat else
  if op ∈ [0xA0#8, 0xA2#8] ∧ b.toNat ≥ 8 then s.raise .invalidRegister b.toNat else
  if op = 0x50#8 ∧ s.pc.toNat + 2 ≥ 256 then s.raise .addressOutOfRange (s.pc.toNat + 2) else
  if s.spWrapPolicy = .fault ∧ Reference.wouldWrap op a s = true then s.raise .stackWrap (s.readReg 7).toNat else
  Reference.complete op a b s

/-- What phase 2 does not reject goes on to the operand fetch and the dispatch checks. -/
theorem Reference.step_of_known {s : State} (below : s.pc.toNat < 256)
    (h3 : classify (s.mem.get s.pc.toNat) ≠ .countThree) (hother : classify (s.mem.get s.pc.toNat) ≠ .undefinedOther) :
    Reference.step s =
      if operandCount (s.mem.get s.pc.toNat) ≥ 1 ∧ s.pc.toNat + 1 ≥ 256 then
        s.raise .addressOutOfRange (s.pc.toNat + 1)
      else if operandCount (s.mem.get s.pc.toNat) = 2 ∧ s.pc.toNat + 2 ≥ 256 then
        s.raise .addressOutOfRange (s.pc.toNat + 2)
      else if classify (s.mem.get s.pc.toNat) = .undefinedAlu then
        s.raise .unsupportedAluOperation (s.mem.get s.pc.toNat).toNat
      else Reference.dispatch (s.mem.get s.pc.toNat) (s.mem.get (s.pc.toNat + 1)) (s.mem.get (s.pc.toNat + 2)) s := by
  have hne := mt classifyWith_eq_countThree_iff.mpr h3
  have hknown := mt (Reference.unknown_iff hne).mp hother
  simp only [Reference.step, if_neg (Nat.not_le.mpr below), ← operandCount_eq_div, if_neg hne, if_neg hknown,
    Reference.unsupported_iff hne, Reference.dispatch, Reference.complete]

theorem Reference.step_of_missingOperand {s : State} (below : s.pc.toNat < 256)
    (h3 : classify (s.mem.get s.pc.toNat) ≠ .countThree) (hother : classify (s.mem.get s.pc.toNat) ≠ .undefinedOther)
    (top : 256 ≤ s.pc.toNat + operandCount (s.mem.get s.pc.toNat)) :
    Reference.step s = s.raise .addressOutOfRange 256 := by
  have hle := operandCount_le_two_of_ne_countThree h3
  rw [Reference.step_of_known below h3 hother]
  by_cases hlast : s.pc.toNat = 255
  · rw [if_pos (by omega), hlast]
  · have htop : s.pc.toNat + 2 = 256 := by omega
    rw [if_neg (by omega), if_pos (by omega), htop]

theorem Reference.step_of_undefinedAlu {s : State} (fits : s.pc.toNat + operandCount (s.mem.get s.pc.toNat) < 256)
    (h : classify (s.mem.get s.pc.toNat) = .undefinedAlu) :
    Reference.step s = s.raise .unsupportedAluOperation (s.mem.get s.pc.toNat).toNat := by
  rw [Reference.step_of_known (by omega) (h.trans_ne nofun) (h.trans_ne nofun), if_neg (by omega), if_neg (by omega),
    if_pos h]

theorem Reference.step_of_defined {s : State} {o : Operation}
    (fits : s.pc.toNat + operandCount (s.mem.get s.pc.toNat) < 256)
    (h : classify (s.mem.get s.pc.toNat) = .defined o) :
    Reference.step s =
      Reference.dispatch (s.mem.get s.pc.toNat) (s.mem.get (s.pc.toNat + 1)) (s.mem.get (s.pc.toNat + 2)) s := by
  have hclass : classify (s.mem.get s.pc.toNat) ≠ .undefinedAlu := h.trans_ne nofun
  rw [Reference.step_of_known (by omega) (h.trans_ne nofun) (h.trans_ne nofun), if_neg (by omega), if_neg (by omega),
    if_neg hclass]

/-- A decode fault of the step is the fault the pseudocode raises. -/
theorem State.raiseDecode_eq_reference {s : State} {e : DecodeError} (h : s.fetched = .error e) :
    s.raiseDecode e = Reference.step s := by
  by_cases below : s.pc.toNat < 256
  · obtain ⟨tail, hbytes, hlen⟩ := State.fetchBytes_eq_cons below
    rw [State.fetched, hbytes] at h
    obtain ⟨rfl, hmissing, h3, hother⟩ | ⟨rfl, hclass⟩ | ⟨rfl, hclass⟩ :=
      opcodeBitsAgreeWithOperations.decodeWith_eq_error h
    · have hle := operandCount_le_two_of_ne_countThree h3
      have htop : s.pc.toNat + (tail.length + 1) = 256 := by omega
      rw [State.raiseDecode, htop, Reference.step_of_missingOperand below h3 hother (by omega)]
    · rw [State.raiseDecode, Reference.step_of_unknown below hclass]
    · have hle := operandCount_le_two_of_ne_countThree (hclass.trans_ne nofun)
      have fits : s.pc.toNat + operandCount (s.mem.get s.pc.toNat) < 256 := by
        by_contra htop
        have hmissing := decodeWith_missingOperand (rest := tail) (hclass.trans_ne nofun) (hclass.trans_ne nofun)
          (by omega)
        cases hmissing.symm.trans h
      rw [State.raiseDecode, Reference.step_of_undefinedAlu fits hclass]
  · rw [State.fetched_past_the_top (Nat.not_lt.mp below)] at h
    cases h
    exact (Reference.step_past_the_top (Nat.not_lt.mp below)).symm

/-! ### The pseudocode's operations as the model's -/

theorem Reference.index_eq {r : Byte} (hr : r.toNat < 8) : Reference.index r = ⟨r.toNat, hr⟩ :=
  Fin.ext (Nat.mod_eq_of_lt hr)

theorem Reference.decrement_eq (s : State) : Reference.decrement s = s.decSp := by
  have hsub : BitVec.ofNat 8 ((s.readReg 7).toNat + 255) = s.sp - 1#8 := by
    refine BitVec.eq_of_toNat_eq ?_
    rw [← s.pushAddress_eq, s.toNat_pushAddress]
    rfl
  rw [Reference.decrement, hsub]
  rfl

theorem Reference.increment_eq (s : State) : Reference.increment s = s.incSp := by
  rw [Reference.increment, BitVec.ofNat_add, BitVec.ofNat_toNat, BitVec.setWidth_eq]
  rfl

theorem Reference.loadTop_eq {r : Byte} (hr : r.toNat < 8) (s : State) :
    Reference.loadTop r s = s.writeReg ⟨r.toNat, hr⟩ (s.loadByte s.sp) := by
  rw [Reference.loadTop, Reference.index_eq hr]
  rfl

/-- The advance as a number is the advance of the nine-bit `pc`. -/
theorem ofNat_pc_add (p : PcWord) (n : Nat) : BitVec.ofNat 9 (p.toNat + 1 + n) = p + BitVec.ofNat 9 (1 + n) := by
  rw [Nat.add_assoc, BitVec.ofNat_add, BitVec.ofNat_toNat, BitVec.setWidth_eq]

/-- The last phases for an instruction that advances, from a handler that leaves `pc` alone. -/
theorem Reference.complete_of_advance {o : Operation} {a b : Byte} {s t : State} (hsets : o.setsPc = false)
    (hhlt : o ≠ .hlt) (ht : Reference.handler (opcodes o) a b s = t) (hpc : t.pc = s.pc) :
    Reference.complete (opcodes o) a b s = t.advancePc o := by
  obtain ⟨-, -, hflag⟩ := opcodeBitsAgreeWithOperations.1 o
  have hclear : pcControlFlag (opcodes o) = false := hflag.trans hsets
  have hop : opcodes o ≠ 0x01#8 := fun h => hhlt (opcodeBitsAgreeWithOperations.2 o .hlt h)
  have hbit : ¬ (opcodes o).toNat / 16 % 2 = 1 := by rw [← pcControlFlag_iff_div_mod, hclear]; exact nofun
  simp only [Reference.complete, ht, if_neg hop, if_neg hbit, State.advancePc, hclear, ← operandCount_eq_div,
    ofNat_pc_add, hpc]
  rfl

/-! ### The handlers after their checks -/

theorem Reference.complete_hlt (a b : Byte) (s : State) :
    Reference.complete 0x01#8 a b s = (s.advancePc .hlt).halt := by
  rw [State.advancePc_hlt]
  exact congrArg (fun p => (s.setPc p).halt) (ofNat_pc_add s.pc 0)

theorem Reference.complete_ret (a b : Byte) (s : State) :
    Reference.complete 0x11#8 a b s = (s.setPc ((s.loadByte s.sp).setWidth 9)).incSp.advancePc .ret := by
  rw [State.advancePc_ret, ← BitVec.ofNat_toNat]
  exact Reference.increment_eq _

theorem Reference.complete_push {r : Byte} (b : Byte) (s : State) (hr : r.toNat < 8) :
    Reference.complete 0x45#8 r b s =
      (s.decSp.storeByte s.decSp.sp (s.decSp.readReg ⟨r.toNat, hr⟩)).advancePc .push := by
  refine Reference.complete_of_advance (o := .push) rfl nofun ?_ rfl
  rw [← Reference.index_eq hr, ← Reference.decrement_eq]
  rfl

theorem Reference.complete_pop {r : Byte} (b : Byte) (s : State) (hr : r.toNat < 8) :
    Reference.complete 0x46#8 r b s = (s.writeReg ⟨r.toNat, hr⟩ (s.loadByte s.sp)).incSp.advancePc .pop := by
  refine Reference.complete_of_advance (o := .pop) rfl nofun ?_ rfl
  rw [← Reference.loadTop_eq hr, ← Reference.increment_eq]
  rfl

theorem Reference.complete_prn {r : Byte} (b : Byte) (s : State) (hr : r.toNat < 8) :
    Reference.complete 0x47#8 r b s = (s.emit (s.readReg ⟨r.toNat, hr⟩)).advancePc .prn := by
  refine Reference.complete_of_advance (o := .prn) rfl nofun ?_ rfl
  rw [← Reference.index_eq hr]
  rfl

theorem Reference.complete_call {r : Byte} (b : Byte) (s : State) (hr : r.toNat < 8) :
    Reference.complete 0x50#8 r b s =
      ((s.decSp.storeByte s.decSp.sp (BitVec.ofNat 8 s.returnAddress)).setPc
        ((s.decSp.readReg ⟨r.toNat, hr⟩).setWidth 9)).advancePc .call := by
  rw [State.advancePc_call, ← Reference.index_eq hr, ← Reference.decrement_eq, ← BitVec.ofNat_toNat]
  rfl

theorem Reference.complete_ldi {r : Byte} (imm : Byte) (s : State) (hr : r.toNat < 8) :
    Reference.complete 0x82#8 r imm s = (s.writeReg ⟨r.toNat, hr⟩ imm).advancePc .ldi := by
  refine Reference.complete_of_advance (o := .ldi) rfl nofun ?_ rfl
  rw [← Reference.index_eq hr]
  rfl

theorem Reference.complete_add {r1 r2 : Byte} (s : State) (h1 : r1.toNat < 8) (h2 : r2.toNat < 8) :
    Reference.complete 0xA0#8 r1 r2 s =
      (s.writeReg ⟨r1.toNat, h1⟩ (s.readReg ⟨r1.toNat, h1⟩ + s.readReg ⟨r2.toNat, h2⟩)).advancePc .add := by
  refine Reference.complete_of_advance (o := .add) rfl nofun ?_ rfl
  rw [← Reference.index_eq h1, ← Reference.index_eq h2]
  rfl

theorem Reference.complete_mul {r1 r2 : Byte} (s : State) (h1 : r1.toNat < 8) (h2 : r2.toNat < 8) :
    Reference.complete 0xA2#8 r1 r2 s =
      (s.writeReg ⟨r1.toNat, h1⟩ (s.readReg ⟨r1.toNat, h1⟩ * s.readReg ⟨r2.toNat, h2⟩)).advancePc .mul := by
  refine Reference.complete_of_advance (o := .mul) rfl nofun ?_ rfl
  rw [← Reference.index_eq h1, ← Reference.index_eq h2]
  rfl

/-! ### The dispatch checks -/

theorem withRegister_eq_next {r : Byte} {s t : State} {k : Fin 8 → Answer}
    (h : ∀ hr : r.toNat < 8, k ⟨r.toNat, hr⟩ = .next t) :
    withRegister r s k = .next (if r.toNat ≥ 8 then s.raise .invalidRegister r.toNat else t) := by
  by_cases hr : r.toNat < 8
  · rw [withRegister_valid hr, h hr, if_neg (Nat.not_le.mpr hr)]
  · rw [withRegister_invalid (Nat.not_lt.mp hr), if_pos (Nat.not_lt.mp hr)]

theorem guardWrap_eq_next (w : Bool) (s t : State) :
    guardWrap w s (.next t) =
      .next (if s.spWrapPolicy = .fault ∧ w = true then s.raise .stackWrap s.sp.toNat else t) := by
  unfold guardWrap
  split <;> rfl

/-- The checks of an opcode with one register operand, other than CALL. -/
theorem Reference.dispatch_one_register {op : Byte} (a b : Byte) (s : State) (hA : op ∉ [0x01#8, 0x11#8])
    (hB : op ∉ [0xA0#8, 0xA2#8]) (hcall : op ≠ 0x50#8) :
    Reference.dispatch op a b s =
      if a.toNat ≥ 8 then s.raise .invalidRegister a.toNat
      else if s.spWrapPolicy = .fault ∧ Reference.wouldWrap op a s = true then s.raise .stackWrap s.sp.toNat
      else Reference.complete op a b s := by
  simp only [Reference.dispatch, hA, hB, hcall, not_false_eq_true, true_and, false_and, if_false]
  rfl

/-- The checks of ADD and MUL: A before B, and no SP update. -/
theorem Reference.dispatch_alu {op : Byte} (a b : Byte) (s : State) (hop : op ∈ [0xA0#8, 0xA2#8]) :
    Reference.dispatch op a b s =
      if a.toNat ≥ 8 then s.raise .invalidRegister a.toNat
      else if b.toNat ≥ 8 then s.raise .invalidRegister b.toNat
      else Reference.complete op a b s := by
  simp only [List.mem_cons, List.not_mem_nil, or_false] at hop
  obtain rfl | rfl := hop
  · simp [Reference.dispatch, Reference.wouldWrap]
  · simp [Reference.dispatch, Reference.wouldWrap]

theorem Reference.dispatch_call (a b : Byte) (s : State) :
    Reference.dispatch 0x50#8 a b s =
      if a.toNat ≥ 8 then s.raise .invalidRegister a.toNat
      else if s.returnAddress ≥ Config.memSize then s.raise .addressOutOfRange s.returnAddress
      else if s.spWrapPolicy = .fault ∧ s.decWraps = true then s.raise .stackWrap s.sp.toNat
      else Reference.complete 0x50#8 a b s := by
  have hA : 0x50#8 ∉ [0x01#8, 0x11#8] := by decide
  have hB : 0x50#8 ∉ [0xA0#8, 0xA2#8] := by decide
  simp only [Reference.dispatch, hA, hB, not_false_eq_true, true_and, false_and, if_false]
  rfl

theorem Reference.dispatch_ret (a b : Byte) (s : State) :
    Reference.dispatch 0x11#8 a b s =
      if s.spWrapPolicy = .fault ∧ s.incWraps = true then s.raise .stackWrap s.sp.toNat
      else Reference.complete 0x11#8 a b s := by
  simp [Reference.dispatch, Reference.wouldWrap, State.incWraps, State.sp]

theorem Reference.dispatch_hlt (a b : Byte) (s : State) :
    Reference.dispatch 0x01#8 a b s = Reference.complete 0x01#8 a b s := by
  simp [Reference.dispatch, Reference.wouldWrap]

/-! ### The meanings against the dispatch -/

theorem execPush_eq_dispatch (r b : Byte) (s : State) : execPush r s = .next (Reference.dispatch 0x45#8 r b s) := by
  rw [Reference.dispatch_one_register r b s (by decide) (by decide) (by decide)]
  refine withRegister_eq_next fun hr => ?_
  rw [Reference.complete_push b s hr]
  exact guardWrap_eq_next s.decWraps s _

theorem execPop_eq_dispatch (r b : Byte) (s : State) : execPop r s = .next (Reference.dispatch 0x46#8 r b s) := by
  rw [Reference.dispatch_one_register r b s (by decide) (by decide) (by decide)]
  refine withRegister_eq_next fun hr => ?_
  have hwraps : Reference.wouldWrap 0x46#8 r s = (s.writeReg ⟨r.toNat, hr⟩ (s.loadByte s.sp)).incWraps := by
    rw [← Reference.loadTop_eq hr]; rfl
  rw [Reference.complete_pop b s hr, hwraps]
  exact guardWrap_eq_next _ s _

theorem execPrn_eq_dispatch (r b : Byte) (s : State) : execPrn r s = .next (Reference.dispatch 0x47#8 r b s) := by
  rw [Reference.dispatch_one_register r b s (by decide) (by decide) (by decide)]
  refine withRegister_eq_next fun hr => ?_
  rw [Reference.complete_prn b s hr, if_neg (fun h => nomatch h.2)]

theorem execLdi_eq_dispatch (r imm : Byte) (s : State) :
    execLdi r imm s = .next (Reference.dispatch 0x82#8 r imm s) := by
  rw [Reference.dispatch_one_register r imm s (by decide) (by decide) (by decide)]
  refine withRegister_eq_next fun hr => ?_
  rw [Reference.complete_ldi imm s hr, if_neg (fun h => nomatch h.2)]

theorem execCall_eq_dispatch (r b : Byte) (s : State) : execCall r s = .next (Reference.dispatch 0x50#8 r b s) := by
  rw [Reference.dispatch_call]
  refine withRegister_eq_next fun hr => ?_
  rw [Reference.complete_call b s hr]
  split
  · rfl
  · exact guardWrap_eq_next s.decWraps s _

theorem execRet_eq_dispatch (a b : Byte) (s : State) : execRet s = .next (Reference.dispatch 0x11#8 a b s) := by
  rw [Reference.dispatch_ret, Reference.complete_ret]
  exact guardWrap_eq_next s.incWraps s _

theorem execHlt_eq_dispatch (a b : Byte) (s : State) : execHlt s = .next (Reference.dispatch 0x01#8 a b s) := by
  rw [Reference.dispatch_hlt, Reference.complete_hlt, execHlt]

theorem execAdd_eq_dispatch (r1 r2 : Byte) (s : State) :
    execAdd r1 r2 s = .next (Reference.dispatch 0xA0#8 r1 r2 s) := by
  rw [Reference.dispatch_alu r1 r2 s (by decide), execAdd, execAlu]
  refine withRegister_eq_next fun h1 => ?_
  refine withRegister_eq_next fun h2 => ?_
  rw [Reference.complete_add s h1 h2, aluTag_add, alu_add]

theorem execMul_eq_dispatch (r1 r2 : Byte) (s : State) :
    execMul r1 r2 s = .next (Reference.dispatch 0xA2#8 r1 r2 s) := by
  rw [Reference.dispatch_alu r1 r2 s (by decide), execMul, execAlu]
  refine withRegister_eq_next fun h1 => ?_
  refine withRegister_eq_next fun h2 => ?_
  rw [Reference.complete_mul s h1 h2, aluTag_mul, alu_mul]

/-- An operand byte of the fetched instruction stands in memory after the opcode, in its order. -/
theorem State.operand_of_fetched {s : State} {i : Instr} {rest : List Byte} (h : s.fetched = .ok i rest) (k : Nat)
    (hk : k < i.operands.length) : s.mem.get (s.pc.toNat + (k + 1)) = i.operands[k] := by
  have hfits := State.fits_of_fetched h
  have hthree := encode_length_le_three i
  have hlen : (encode i).length = i.operands.length + 1 := rfl
  have hget := s.mem.bytesFrom_getElem? s.pc.toNat 3 (k + 1) (by omega)
  rw [← State.fetchBytes, State.fetchBytes_of_fetched h, List.getElem?_append_left (by omega),
    Memory.read_eq_some _ (show s.pc.toNat + (k + 1) < 256 by omega)] at hget
  exact (Option.some.inj ((List.getElem?_eq_getElem hk).symm.trans hget)).symm

/-- The meaning of the fetched instruction is the pseudocode's dispatch of the bytes at `pc`. -/
theorem exec_eq_dispatch {s : State} {i : Instr} {rest : List Byte} (h : s.fetched = .ok i rest) :
    exec i s = .next (Reference.dispatch (s.mem.get s.pc.toNat) (s.mem.get (s.pc.toNat + 1))
      (s.mem.get (s.pc.toNat + 2)) s) := by
  have hoperand := State.operand_of_fetched h
  rw [State.opcode_of_fetched h]
  cases i with
  | hlt => exact execHlt_eq_dispatch _ _ s
  | ret => exact execRet_eq_dispatch _ _ s
  | push r => rw [show s.mem.get (s.pc.toNat + 1) = r from hoperand 0 Nat.one_pos]; exact execPush_eq_dispatch r _ s
  | pop r => rw [show s.mem.get (s.pc.toNat + 1) = r from hoperand 0 Nat.one_pos]; exact execPop_eq_dispatch r _ s
  | prn r => rw [show s.mem.get (s.pc.toNat + 1) = r from hoperand 0 Nat.one_pos]; exact execPrn_eq_dispatch r _ s
  | call r => rw [show s.mem.get (s.pc.toNat + 1) = r from hoperand 0 Nat.one_pos]; exact execCall_eq_dispatch r _ s
  | ldi r imm =>
    rw [show s.mem.get (s.pc.toNat + 1) = r from hoperand 0 Nat.two_pos,
      show s.mem.get (s.pc.toNat + 2) = imm from hoperand 1 Nat.one_lt_two]
    exact execLdi_eq_dispatch r imm s
  | add r1 r2 =>
    rw [show s.mem.get (s.pc.toNat + 1) = r1 from hoperand 0 Nat.two_pos,
      show s.mem.get (s.pc.toNat + 2) = r2 from hoperand 1 Nat.one_lt_two]
    exact execAdd_eq_dispatch r1 r2 s
  | mul r1 r2 =>
    rw [show s.mem.get (s.pc.toNat + 1) = r1 from hoperand 0 Nat.two_pos,
      show s.mem.get (s.pc.toNat + 2) = r2 from hoperand 1 Nat.one_lt_two]
    exact execMul_eq_dispatch r1 r2 s

/-- Settles O14: a rejected decode raises the fault of phases 1 to 4, and a decoded instruction's meaning is the
dispatch of phases 4 to 6. -/
theorem stepIsThePseudocode : Obligations.StepIsThePseudocode := by
  intro s running
  cases hf : s.fetched with
  | error e => rw [step_of_fetch_error running hf, State.raiseDecode_eq_reference hf]
  | ok i rest =>
    have hop := State.opcode_of_fetched hf
    have hfits := State.fits_of_fetched hf
    have hclass : classify (s.mem.get s.pc.toNat) = .defined i.operation := by
      rw [hop]; exact opcodeBitsAgreeWithOperations.classifyWith_self i.operation
    have hcount : operandCount (s.mem.get s.pc.toNat) = i.operation.operandCount := by
      rw [hop, (opcodeBitsAgreeWithOperations.1 i.operation).1]
    rw [encode_length, ← hcount] at hfits
    rw [step_of_fetched running hf, exec_eq_dispatch hf, Reference.step_of_defined (by omega) hclass]

end Sys2Proof.Machine
